-- ==== Sys2Proof/Word.lean ====
section
/-! DEFINITION. The bus word (spec/00_scope.md R8): a *word* is 32 bits. -/

namespace Sys2Proof

/-- A 32-bit word: what one bus access transfers (20_memory R72) and what a command is (30_encoding R100). -/
abbrev Word := BitVec 32

/-- A byte; seen only where a platform makes the register window byte-addressable (20_memory R75). -/
abbrev Byte := BitVec 8

end Sys2Proof
end

