-- ==== Sys2Proof/Machine/Arithmetic.lean ====
section
/-! DEFINITION. The arithmetic core (spec/40_arithmetic_core.md): division, the modular multiplier as a function (R132, R135),
and the spec's two reference circuits (R136, R138), which are normative only through their results. Exact unbounded
arithmetic throughout (R130). -/

namespace Sys2Proof.Machine

/-- `bitlen(v)` (00_scope R9). -/
def bitlen (v : Nat) : Nat := if v = 0 then 0 else v.log2 + 1

/-- `v` needs no bit above bit `w - 1`. -/
def fitsWidth (w v : Nat) : Bool := v >>> w == 0

/-- `CondSub(v, m)` (R133). -/
def condSub (v m : Nat) : Nat := if m ≤ v then v - m else v

/-- `ModMul(a, b, m)`, the canonical residue of the exact product (R135); no command reaches it with `m = 0`. -/
def modMul (a b m : Nat) : Nat := a * b % m

/-- The iterations of the reference multiplier for bits `i - 1` down to 0 of `b` (R136). -/
def modMulRefLoop (a' b m : Nat) : Nat → Nat → Nat
  | 0, acc => acc
  | i + 1, acc =>
    let doubled := condSub (2 * acc) m
    modMulRefLoop a' b m i (if b.testBit i then condSub (doubled + a') m else doubled)

/-- `ModMulRef(a, b, m)` at width `w` (R136): MSB first, double, then add, each with one conditional subtraction. -/
def modMulRef (w a b m : Nat) : Nat := modMulRefLoop (a % m) b m w 0

/-- The iterations of the reference divider for bits `i - 1` down to 0 of `n` (R138). -/
def divRemRefLoop (n d : Nat) : Nat → Nat × Nat → Nat × Nat
  | 0, qr => qr
  | i + 1, (q, r) =>
    let shifted := 2 * r + (if n.testBit i then 1 else 0)
    divRemRefLoop n d i (if d ≤ shifted then (q + 2 ^ i, shifted - d) else (q, shifted))

/-- `DivRemRef(n, d)`, restoring division (R138). -/
def divRemRef (n d : Nat) : Nat × Nat := divRemRefLoop n d (bitlen n) (0, 0)

end Sys2Proof.Machine
end

