-- ==== Sys2Proof/Config.lean ====
section
/-! DEFINITION. What an implementation of the MRNT engine fixes (spec/00_scope.md R6), the document's named constants
(R7), and the one source of free values (spec/10_state.md R48). -/

namespace Sys2Proof.Config

/-- `NREG`, the number of general registers (R6, R30). -/
def nreg : Nat := 8

/-- `L` at the default `W = 512` (R6). The model carries `L` as data of the state (log entry 1); this is the value that
`State.reset` has. -/
def defaultLimbs : Nat := 16

/-- The least `L` the spec admits: `W` is a multiple of 32 and at least 64 (R6). -/
def minLimbs : Nat := 2

/-- The largest `L` that the 8-bit field `CFG.LIMBS` can report (10_state R41). DEDUCED, log entry 1. -/
def maxLimbs : Nat := 255

/-- The constant of the `ID` register, the bytes "MRNT" (10_state R40). -/
def idValue : BitVec 32 := 0x4D524E54#32

/-- `PUBLIC_EXPONENT` (R7): host configuration, hardwired nowhere in the engine. -/
def publicExponent : Nat := 65537

/-- `PRIME_BITS` (R7): host configuration. -/
def primeBits : Nat := 256

/-- `MR_ROUNDS` (R7): host configuration, the round count of `ISPRIME` (30_encoding R110). -/
def mrRounds : Nat := 10

/-- The free values: nothing in Lean knows any of them. The engine draws them for the working registers whose contents
the spec leaves unspecified (10_state R48; DESIGN CHOICE of the form, log entry 5). -/
opaque freeValue : Nat → Nat

end Sys2Proof.Config
end

