-- ==== Sys2Proof/Syntax.lean ====
section
/-! DEFINITION. The seven commands of the MRNT engine (spec/opcode_table.json; spec/30_encoding.md R104). -/

namespace Sys2Proof

/-- The number of a general register, `G0` to `G7`. A 3-bit field names one of the eight directly and every value is
valid (30_encoding R103), so the bound belongs to the type. -/
abbrev Reg := Fin 8

/-- One constructor per row of the opcode table, operands in the order of R104's "operands" column. -/
inductive Instr where
  /-- `GCD rd, ra, rb` (41_gcd_lcm R161). -/
  | gcd (rd ra rb : Reg)
  /-- `LCM rd, ra, rb` (41_gcd_lcm R163). -/
  | lcm (rd ra rb : Reg)
  /-- `MODMUL rd, ra, rb, rm` (42_modmul_modpow R170). -/
  | modmul (rd ra rb rm : Reg)
  /-- `MODPOW rd, ra, rb, rm` (42_modmul_modpow R172): base, exponent, modulus. -/
  | modpow (rd ra rb rm : Reg)
  /-- `ENCRYPT rd, ra, rb, rm` (42_modmul_modpow R173): plaintext, exponent, modulus. -/
  | encrypt (rd ra rb rm : Reg)
  /-- `MODINV rd, ra, rm` (43_modinv R191). -/
  | modinv (rd ra rm : Reg)
  /-- `MRTEST rm, #rounds` (44_mrtest R200). -/
  | mrtest (rm : Reg) (rounds : Nat)
deriving DecidableEq, Repr

end Sys2Proof
end

