-- ==== Sys2Proof/Machine/State.lean ====
section
/-! DEFINITION. Everything the spec gives the MRNT engine (spec/10_state.md), as plain data, and the state right after
reset (R55). General registers and working registers hold unsigned integers, as the spec's pseudocode does (00_scope R8);
`Inv` of Safety.lean bounds each by its width. -/

namespace Sys2Proof.Machine

/-- Why the machine could stop with a fault: never. An error of a command is a completion (60_exceptions R246), a bad bus
access is answered with an error response (20_memory R73), and the one stuck state stays a state (60_exceptions R258). So
no constructor; that is safe: nothing is cut short. -/
inductive Fault
deriving DecidableEq, Repr

/-- Why the machine could give no meaning. -/
inductive Refusal where
  /-- Raised by an arm of `exec` that has no meaning yet; no arm of this model uses it. Safe: it stops a run. -/
  | notModelled (mnemonic : String)
deriving DecidableEq, Repr

/-- The sequencer phase (R34). -/
inductive Phase where
  /-- No command is running. -/
  | idle
  /-- A command is running. -/
  | run
  /-- A running `MRTEST` has a `RandRange` request outstanding. -/
  | waitRng
deriving DecidableEq, Repr

/-- The error kinds of 60_exceptions R240. -/
inductive ErrKind where
  | invalidModulus
  | noInverseExists
  | messageTooLarge
  /-- Host only (60_exceptions R244). -/
  | primeGenerationExhausted
  /-- Host only (60_exceptions R244). -/
  | valueTooLarge
  | illegalCommand
  | resultOverflow
  | rngFailure
deriving DecidableEq, Repr

/-- The stored fields of `CTRL` (R42); `SRST` always reads 0 and is not stored. -/
structure Ctrl where
  ieDone : Bool
  ieErr : Bool
deriving DecidableEq, Repr

/-- The stored fields of `STATUS` (R43); `BUSY` is computed from the phase (R35). -/
structure Status where
  done : Bool
  err : Bool
  pp : Bool
  cmderr : Bool
  errcode : BitVec 8
deriving DecidableEq, Repr

/-- The source latch and the working registers (R47, R48), each under the spec's name. -/
structure Work where
  ir : Word
  sa : Nat
  sb : Nat
  sm : Nat
  u : Nat
  v : Nat
  res : Nat
  bas : Nat
  exp : Nat
  prod : Nat
  rem0 : Nat
  rem1 : Nat
  t0 : Int
  t1 : Int
  q : Nat
  d : Nat
  s : Nat
  x : Nat
  rnd : Nat
  j : Nat
deriving DecidableEq, Repr

/-- The random-source port (R52). -/
inductive RngPort where
  /-- No request outstanding. -/
  | idle
  /-- `RandRange(lo, hi)` has been issued and is not answered. -/
  | requested (lo hi : Nat)
  /-- The answer `(ok, v)` has arrived and the engine has not used it yet. -/
  | answered (ok : Bool) (v : Nat)
deriving DecidableEq, Repr

/-- One outside event, or the engine's turn; R81's total order is a list of these (log entry 2). -/
inductive Input where
  /-- The engine makes its next event. -/
  | engine
  /-- `MemRead(addr, width)`, `width` in bytes (R51). -/
  | read (addr width : Nat)
  /-- `MemWrite(addr, width, data)`, `width` in bytes (R51). -/
  | write (addr width : Nat) (data : Word)
  /-- The random source answers its request number `req` with `(ok, v)` (R52; log entry 6). -/
  | rngAnswer (req : Nat) (ok : Bool) (v : Nat)
  /-- The hard reset input is asserted (70_reset R270). -/
  | hardReset
deriving DecidableEq, Repr

/-- What the host gets back from a bus transaction (R51, 20_memory R72, R73). -/
inductive BusResp where
  /-- There has been no transaction. -/
  | none
  /-- A read succeeded with this word. -/
  | data (v : Word)
  /-- A write was accepted without a bus error. -/
  | ok
  /-- The bus error response, `err = 1`. -/
  | error
deriving DecidableEq, Repr

/-- The machine. The last five fields are the model's own (INVENTORY.md, State). -/
structure State where
  /-- `x[0]`..`x[7]` (R30). -/
  regs : Vector Nat 8
  /-- `PHASE` (R34). -/
  phase : Phase
  /-- `CTRL` (R42). -/
  ctrl : Ctrl
  /-- `STATUS` (R43). -/
  status : Status
  /-- The source latch and working registers (R47, R48). -/
  work : Work
  /-- The random-source port (R52). -/
  rng : RngPort
  /-- `L = W / 32` (00_scope R6; log entry 1). -/
  limbs : Nat
  /-- The events still to come (log entry 2). -/
  inbox : List Input
  /-- The host's answer from its latest bus transaction (log entry 7). -/
  busResp : BusResp
  /-- How many `RandRange` requests have been issued (log entry 6). -/
  rngSeq : Nat
  /-- The counter the free values are drawn with (log entry 5). -/
  freeCtr : Nat
deriving DecidableEq, Repr

/-- The working registers after reset: all 0 (R55). -/
def Work.zero : Work :=
  { ir := 0, sa := 0, sb := 0, sm := 0, u := 0, v := 0, res := 0, bas := 0, exp := 0, prod := 0, rem0 := 0, rem1 := 0,
    t0 := 0, t1 := 0, q := 0, d := 0, s := 0, x := 0, rnd := 0, j := 0 }

/-- The machine right after reset (R55) at the default width, with nothing from outside to come. -/
def State.reset : State :=
  { regs := Vector.replicate 8 0
    phase := .idle
    ctrl := { ieDone := false, ieErr := false }
    status := { done := false, err := false, pp := false, cmderr := false, errcode := 0 }
    work := Work.zero
    rng := .idle
    limbs := Config.defaultLimbs
    inbox := []
    busResp := .none
    rngSeq := 0
    freeCtr := 0 }

/-- `W`, the width of every general register (00_scope R6). -/
def State.width (s : State) : Nat := 32 * s.limbs

end Sys2Proof.Machine
end

