-- ==== Sys2Proof/Machine/Flags.lean ====
section
/-! DEFINITION. Flags and status words: `ID`, `CFG`, `CTRL`, `STATUS` as the host reads them (spec/10_state.md R40 to R44),
the updates of `STATUS`, the error codes (spec/60_exceptions.md R240) and the interrupt output (R250). -/

namespace Sys2Proof.Machine

/-- The code of an error kind in `STATUS.ERRCODE` (60_exceptions R240). -/
def ErrKind.code : ErrKind → BitVec 8
  | .invalidModulus => 0x01#8
  | .noInverseExists => 0x02#8
  | .messageTooLarge => 0x03#8
  | .primeGenerationExhausted => 0x04#8
  | .valueTooLarge => 0x05#8
  | .illegalCommand => 0x10#8
  | .resultOverflow => 0x11#8
  | .rngFailure => 0x12#8

/-- `STATUS.BUSY` is 1 exactly when `PHASE != IDLE` (10_state R35). -/
def State.busy (s : State) : Bool := s.phase != .idle

/-- A flag at its bit position. -/
def flagBit (b : Bool) (pos : Nat) : Nat := if b then 2 ^ pos else 0

/-- `STATUS` as read (10_state R43); reserved bits read 0. -/
def State.statusWord (s : State) : Word :=
  BitVec.ofNat 32 (flagBit s.busy 0 + flagBit s.status.done 1 + flagBit s.status.err 2 + flagBit s.status.pp 3 +
    flagBit s.status.cmderr 4 + s.status.errcode.toNat * 2 ^ 8)

/-- `CTRL` as read (10_state R42); bits 30:2 and `SRST` read 0. -/
def State.ctrlWord (s : State) : Word := BitVec.ofNat 32 (flagBit s.ctrl.ieDone 0 + flagBit s.ctrl.ieErr 1)

/-- `CFG` as read (10_state R41): `LIMBS` in bits 7:0, `NREG` in bits 11:8. -/
def State.cfgWord (s : State) : Word := BitVec.ofNat 32 (s.limbs % 2 ^ 8 + Config.nreg * 2 ^ 8)

/-- A host write to the stored bits of `CTRL` (10_state R42). -/
def Ctrl.written (v : Word) : Ctrl := { ieDone := v.getLsbD 0, ieErr := v.getLsbD 1 }

/-- A host write to `STATUS`: write-1-to-clear of `DONE`, `ERR` (with `ERRCODE`) and `CMDERR` (10_state R44). -/
def Status.written (st : Status) (v : Word) : Status :=
  { st with
    done := st.done && !v.getLsbD 1
    err := st.err && !v.getLsbD 2
    errcode := if v.getLsbD 2 then 0 else st.errcode
    cmderr := st.cmderr && !v.getLsbD 4 }

/-- Acceptance clears `DONE`, `ERR`, `ERRCODE` and keeps `PP`, `CMDERR` (10_state R46). -/
def Status.accepted (st : Status) : Status := { st with done := false, err := false, errcode := 0 }

/-- Successful completion sets `DONE`; `ERR` and `ERRCODE` stay as acceptance left them (60_exceptions R245). -/
def Status.succeeded (st : Status) : Status := { st with done := true }

/-- Completion with error (60_exceptions R246). -/
def Status.failed (st : Status) (e : ErrKind) : Status := { st with done := true, err := true, errcode := e.code }

/-- The interrupt output (60_exceptions R250). -/
def State.irq (s : State) : Bool := (s.status.done && s.ctrl.ieDone) || (s.status.err && s.ctrl.ieErr)

end Sys2Proof.Machine
end

