-- ==== Sys2Proof/WellFormed.lean ====
section
/-! DEFINITION. Which terms of `Instr` are commands the encoding can express (spec/30_encoding.md R102). -/

namespace Sys2Proof

/-- The one check: the rounds count fits the 8-bit immediate, 0..255 (30_encoding R102). A register number needs none:
the type `Reg` has exactly the eight that exist (R103). -/
def Instr.wellFormed : Instr → Bool
  | .gcd _ _ _ => true
  | .lcm _ _ _ => true
  | .modmul _ _ _ _ => true
  | .modpow _ _ _ _ => true
  | .encrypt _ _ _ _ => true
  | .modinv _ _ _ => true
  | .mrtest _ rounds => decide (rounds < 256)

end Sys2Proof
end

