-- ==== Sys2Proof/Decode.lean ====
section
/-! DEFINITION. The decoder, total on every 32-bit word (spec/30_encoding.md R108), the encoder (R101, R108) and the
pseudo-instructions (R110). A command reaches the engine by value, as one bus word (20_memory R83): there are no instruction
bytes to fetch. -/

namespace Sys2Proof

/-- `v[hi:lo]`, the unsigned integer made of bits `hi` down to `lo` (00_scope R8). -/
def bits (hi lo : Nat) (v : Word) : Nat := v.toNat / 2 ^ lo % 2 ^ (hi + 1 - lo)

/-- The register number in the 3-bit field whose lowest bit is `lo` (30_encoding R103). -/
def regField (lo : Nat) (c : Word) : Reg := Fin.ofNat 8 (c.toNat / 2 ^ lo)

/-- Why a word is illegal (30_encoding R106); the engine reports every case as `IllegalCommand` (60_exceptions R247). -/
inductive DecodeError where
  /-- `rsv`, bits 15:12, is not 0 (R105). -/
  | reservedField
  /-- The opcode has the row of a command and a must-be-zero field of that row is not 0 (R105). -/
  | mustBeZeroField
  /-- `op` is `0x00` or `0x08`..`0xFF` (R106, R107). -/
  | reservedOpcode
deriving DecidableEq, Repr

/-- What a word decodes to (30_encoding R108): a command, or "Illegal" with the reason. -/
inductive Decoded where
  | ok (i : Instr)
  | illegal (why : DecodeError)
deriving DecidableEq, Repr

/-- The instruction, where there is one. -/
def Decoded.instr? : Decoded → Option Instr
  | .ok i => some i
  | .illegal _ => none

/-- The decoder of 30_encoding R108. -/
def decode (c : Word) : Decoded :=
  let op := bits 31 24 c
  let imm8 := bits 23 16 c
  let rd := regField 9 c
  let ra := regField 6 c
  let rb := regField 3 c
  let rm := regField 0 c
  if bits 15 12 c ≠ 0 then .illegal .reservedField
  else if op = 0x01 then
    if imm8 = 0 ∧ rm = 0 then .ok (.gcd rd ra rb) else .illegal .mustBeZeroField
  else if op = 0x02 then
    if imm8 = 0 ∧ rm = 0 then .ok (.lcm rd ra rb) else .illegal .mustBeZeroField
  else if op = 0x03 then
    if imm8 = 0 then .ok (.modmul rd ra rb rm) else .illegal .mustBeZeroField
  else if op = 0x04 then
    if imm8 = 0 then .ok (.modpow rd ra rb rm) else .illegal .mustBeZeroField
  else if op = 0x05 then
    if imm8 = 0 then .ok (.encrypt rd ra rb rm) else .illegal .mustBeZeroField
  else if op = 0x06 then
    if imm8 = 0 ∧ rb = 0 then .ok (.modinv rd ra rm) else .illegal .mustBeZeroField
  else if op = 0x07 then
    if rd = 0 ∧ ra = 0 ∧ rb = 0 then .ok (.mrtest rm imm8) else .illegal .mustBeZeroField
  else .illegal .reservedOpcode

/-- The instruction read from an opcode-table word: `w`'s low `nbits` bits. A command is one 32-bit word (R100), so a
value that needs more bits is none (log entry 11). -/
def decodeTableWord (nbits w : Nat) : Option Instr :=
  let c := w % 2 ^ nbits
  if c < 2 ^ 32 then (decode (BitVec.ofNat 32 c)).instr? else none

/-- The fields of a word at their places (30_encoding R101), `rsv` being 0. -/
def encodeFields (op imm8 : Nat) (rd ra rb rm : Reg) : Word :=
  BitVec.ofNat 32
    (op * 2 ^ 24 + imm8 * 2 ^ 16 + rd.val * 2 ^ 9 + ra.val * 2 ^ 6 + rb.val * 2 ^ 3 + rm.val)

/-- The encoder of 30_encoding R108: unused fields are 0. -/
def encode : Instr → Word
  | .gcd rd ra rb => encodeFields 0x01 0 rd ra rb 0
  | .lcm rd ra rb => encodeFields 0x02 0 rd ra rb 0
  | .modmul rd ra rb rm => encodeFields 0x03 0 rd ra rb rm
  | .modpow rd ra rb rm => encodeFields 0x04 0 rd ra rb rm
  | .encrypt rd ra rb rm => encodeFields 0x05 0 rd ra rb rm
  | .modinv rd ra rm => encodeFields 0x06 0 rd ra 0 rm
  | .mrtest rm rounds => encodeFields 0x07 rounds 0 0 0 rm

/-- The pseudo-instruction `DECRYPT rd, ra, rb, rm` (30_encoding R110, 42_modmul_modpow R174). -/
def pseudoDecrypt (rd ra rb rm : Reg) : Instr := .modpow rd ra rb rm

/-- The pseudo-instruction `ISPRIME rm` (30_encoding R110). -/
def pseudoIsPrime (rm : Reg) : Instr := .mrtest rm 10

end Sys2Proof
end

