-- ==== Sys2Proof/Machine/Operands.lean ====
section
/-! DEFINITION. Operands: the register file, its 32-bit limbs (spec/20_memory.md R75) and the source latch, the engine's
one addressing mode (R84; spec/10_state.md R47). -/

namespace Sys2Proof.Machine

/-- Read of `x[r]` (00_scope R9). No register is hardwired (10_state R32). -/
def State.reg (s : State) (r : Reg) : Nat := s.regs[r.val]

/-- Write of `x[r]`, all `W` bits; the spec's rule for each command shows `v < 2^W` (00_scope R9, 20_memory R84). -/
def State.writeReg (s : State) (r : Reg) (v : Nat) : State := { s with regs := s.regs.set r.val v }

/-- Limb `k` of `v`, `v[32k+31:32k]` (00_scope R8). -/
def limb (v k : Nat) : Word := BitVec.ofNat 32 (v / 2 ^ (32 * k))

/-- `v` with limb `k` replaced by `w`: the bits above it, it, the bits below it (20_memory R75, R77). -/
def setLimb (v k : Nat) (w : Word) : Nat :=
  v / 2 ^ (32 * k + 32) * 2 ^ (32 * k + 32) + w.toNat * 2 ^ (32 * k) + v % 2 ^ (32 * k)

/-- The source latch (10_state R47): `IR`, and `SA`, `SB`, `SM` from the registers the word names, used or not. -/
def State.latchSources (s : State) (c : Word) : State :=
  { s with work :=
    { s.work with ir := c, sa := s.reg (regField 6 c), sb := s.reg (regField 3 c), sm := s.reg (regField 0 c) } }

/-- The command word names an instruction, or is illegal (30_encoding R106): the engine's decoding of `IR`. -/
def State.currentCommand (s : State) : Decoded := decode s.work.ir

end Sys2Proof.Machine
end

