-- ==== Sys2Proof/Machine/Ops.lean ====
section
/-! DEFINITION. The named operations every command and every outside event is built from: acceptance (spec/10_state.md
R46), successful completion (spec/60_exceptions.md R245), completion with error, which is this hardware's taking of an
exception (R246), the `RandRange` request and its answer (spec/10_state.md R52), reset (spec/70_reset_and_hazards.md R271)
and the dropped write (spec/20_memory.md R79). There is no return from an exception (R254): after a completion with error the
phase is `IDLE` and the next acceptance clears the error. -/

namespace Sys2Proof.Machine

/-- The `k`-th free value of draw `c`: below `bound` (10_state R48, log entry 5). -/
def freeBelow (bound c k : Nat) : Nat := Config.freeValue (32 * c + k) % bound

/-- The width of `S` and `J`, `bitlen(W) + 1` (10_state R48). -/
def countWidth (w : Nat) : Nat := bitlen w + 1

/-- Working registers of which only the widths are known (10_state R48: unspecified and unobservable; log entry 5). -/
def Work.free (w c : Nat) : Work :=
  { ir := BitVec.ofNat 32 (freeBelow (2 ^ 32) c 0)
    sa := freeBelow (2 ^ w) c 1
    sb := freeBelow (2 ^ w) c 2
    sm := freeBelow (2 ^ w) c 3
    u := freeBelow (2 ^ w) c 4
    v := freeBelow (2 ^ w) c 5
    res := freeBelow (2 ^ w) c 6
    bas := freeBelow (2 ^ w) c 7
    exp := freeBelow (2 ^ w) c 8
    prod := freeBelow (2 ^ (2 * w)) c 9
    rem0 := freeBelow (2 ^ w) c 10
    rem1 := freeBelow (2 ^ w) c 11
    t0 := (freeBelow (2 ^ (w + 2)) c 12 : Int) - 2 ^ (w + 1)
    t1 := (freeBelow (2 ^ (w + 2)) c 13 : Int) - 2 ^ (w + 1)
    q := freeBelow (2 ^ w) c 14
    d := freeBelow (2 ^ w) c 15
    s := freeBelow (2 ^ countWidth w) c 16
    x := freeBelow (2 ^ w) c 17
    rnd := freeBelow (2 ^ 8) c 18
    j := freeBelow (2 ^ countWidth w) c 19 }

/-- The command is over: `PHASE <- IDLE`, nothing is left at the random-source port, and the working registers hold
unspecified values (10_state R48). -/
def State.finish (s : State) : State :=
  { s with phase := .idle, rng := .idle, work := Work.free s.width s.freeCtr, freeCtr := s.freeCtr + 1 }

/-- Acceptance of a command word, one indivisible event (10_state R46). -/
def State.accept (s : State) (c : Word) : State :=
  { s.latchSources c with status := s.status.accepted, phase := .run }

/-- Successful completion with the result write `x[rd] <- v` (60_exceptions R245). -/
def State.completeReg (s : State) (rd : Reg) (v : Nat) : State :=
  { (s.finish).writeReg rd v with status := s.status.succeeded }

/-- Successful completion with the verdict `STATUS.PP <- b` (60_exceptions R245; `MRTEST`). -/
def State.completeVerdict (s : State) (b : Bool) : State :=
  { s.finish with status := { s.status.succeeded with pp := b } }

/-- Completion with error, one indivisible event: the engine's whole "trap entry" (60_exceptions R246). -/
def State.raise (s : State) (e : ErrKind) : State := { s.finish with status := s.status.failed e }

/-- `MRTEST` issues `RandRange(2, n - 2)` with `n = SM` (10_state R35, R52). The registers the command goes on with are
`IR`, the source latch, `D`, `S` and the rounds still to run; the others are open until completion (R48, log entry 5). -/
def State.requestWitness (s : State) (d e rnd : Nat) : State :=
  { s with
    phase := .waitRng
    rng := .requested 2 (s.work.sm - 2)
    rngSeq := s.rngSeq + 1
    work :=
      { Work.free s.width s.freeCtr with
        ir := s.work.ir, sa := s.work.sa, sb := s.work.sb, sm := s.work.sm, d := d, s := e, rnd := rnd }
    freeCtr := s.freeCtr + 1 }

/-- The random source answers request number `req` (10_state R35, R52). An answer to no outstanding request, or to one that
a reset withdrew, is ignored (70_reset R272, log entry 6). The port carries `W` bits (10_state R51). -/
def State.deliverAnswer (s : State) (req : Nat) (ok : Bool) (v : Nat) : State :=
  if s.phase = .waitRng ∧ req = s.rngSeq then
    { s with phase := .run, rng := .answered ok (v % 2 ^ s.width) }
  else s

/-- The effect of reset, hard or soft (70_reset R271): every piece of the engine's state takes its value of 10_state R55.
What belongs to the machine's parameter, to the outside world or to the model stays (log entry 8). -/
def State.engineReset (s : State) : State :=
  { State.reset with
    limbs := s.limbs, inbox := s.inbox, busResp := s.busResp, rngSeq := s.rngSeq, freeCtr := s.freeCtr }

/-- A host write dropped because the engine is busy (20_memory R79): only `CMDERR` changes. -/
def State.dropWrite (s : State) : State := { s with status := { s.status with cmderr := true } }

/-- The answer to the host's bus transaction (10_state R51). -/
def State.respond (s : State) (r : BusResp) : State := { s with busResp := r }

end Sys2Proof.Machine
end

