-- ==== Sys2Proof/Machine/Bus.lean ====
section
/-! DEFINITION. The register window as the host sees it (spec/20_memory.md R70 to R79): where an access goes, what a read
returns, what a write does, idle and busy. -/

namespace Sys2Proof.Machine

/-- What a legal access reaches (R71). -/
inductive Target where
  | id
  | cfg
  | ctrl
  | status
  | cmd
  /-- Limb `k` of `x[r]`. -/
  | limb (r : Reg) (k : Nat)
deriving DecidableEq, Repr

/-- `GSTRIDE = W / 8`, the bytes of one general register in the window (00_scope R6). -/
def stride (limbs : Nat) : Nat := 4 * limbs

/-- The offset of limb `k` of `x[r]` (R71). -/
def limbAddr (limbs : Nat) (r : Reg) (k : Nat) : Nat := 0x100 + r.val * stride limbs + 4 * k

/-- The register map (R71) for the only legal access, an aligned 32-bit one (R72); `none` is the bus error of R73. -/
def busTarget (limbs addr width : Nat) : Option Target :=
  if width ≠ 4 ∨ addr % 4 ≠ 0 then none
  else if addr = 0x000 then some .id
  else if addr = 0x004 then some .cfg
  else if addr = 0x008 then some .ctrl
  else if addr = 0x00C then some .status
  else if addr = 0x010 then some .cmd
  else if 0x100 ≤ addr ∧ addr < 0x100 + 8 * stride limbs then
    some (.limb (Fin.ofNat 8 ((addr - 0x100) / stride limbs)) ((addr - 0x100) % stride limbs / 4))
  else none

/-- The word a target reads as (R72, R74, R75, R79); `CMD` is write-only and reads 0. -/
def State.readTarget (s : State) : Target → Word
  | .id => Config.idValue
  | .cfg => s.cfgWord
  | .ctrl => s.ctrlWord
  | .status => s.statusWord
  | .cmd => 0
  | .limb r k => Sys2Proof.Machine.limb (s.reg r) k

/-- `MemRead(addr, width)` (R72, R73): the word, or `none` for the bus error response. -/
def State.busRead (s : State) (addr width : Nat) : Option Word := (busTarget s.limbs addr width).map s.readTarget

/-- A byte of the window, where a platform makes it byte-addressable: little-endian within the word (R75). -/
def State.windowByte (s : State) (addr : Nat) : Option Byte :=
  (s.busRead (addr - addr % 4) 4).map fun w => w.extractLsb' (8 * (addr % 4)) 8

/-- A write to a mapped target (R74, R77, R79; 10_state R42, R44, R45). -/
def State.writeTarget (s : State) (t : Target) (v : Word) : State :=
  match t with
  | .id => s
  | .cfg => s
  | .ctrl => if v.getLsbD 31 then s.engineReset else { s with ctrl := Ctrl.written v }
  | .status => { s with status := s.status.written v }
  | .cmd => if s.busy then s.dropWrite else s.accept v
  | .limb r k => if s.busy then s.dropWrite else s.writeReg r (setLimb (s.reg r) k v)

/-- A bus read as an event: no side effect but the host's answer (R77). -/
def State.hostRead (s : State) (addr width : Nat) : State :=
  match s.busRead addr width with
  | some w => s.respond (.data w)
  | none => s.respond .error

/-- A bus write as an event; a bad access changes no engine state (R73), a dropped write is no bus error (R79). -/
def State.hostWrite (s : State) (addr width : Nat) (v : Word) : State :=
  match busTarget s.limbs addr width with
  | some t => (s.writeTarget t v).respond .ok
  | none => s.respond .error

end Sys2Proof.Machine
end

