-- ==== Sys2Proof/Machine/GcdLcm.lean ====
section
/-! DEFINITION. `GCD` and `LCM` (spec/41_gcd_lcm.md). -/

namespace Sys2Proof.Machine

/-- The Euclidean loop on `(U, V)` (R160). `V` strictly decreases, so fuel `V + 1` is never used up. -/
def gcdLoop : Nat → Nat → Nat → Nat
  | 0, u, _ => u
  | fuel + 1, u, v => if v = 0 then u else gcdLoop fuel v (u % v)

/-- `Gcd(a, b)` (R160). The first iteration with `a < b` only swaps, so one more is allowed for. -/
def gcd (a b : Nat) : Nat := gcdLoop (b + 1) a b

/-- `Lcm(a, b)` (R162): divide before multiplying. -/
def lcm (a b : Nat) : Nat := if a = 0 ∨ b = 0 then 0 else a / gcd a b * b

/-- `GCD rd, ra, rb` (R161). The sources are the latched `SA`, `SB` (10_state R47), not the registers read again. -/
def execGcd (rd _ra _rb : Reg) (s : State) : Host.Outcome State Fault Refusal :=
  .next (s.completeReg rd (gcd s.work.sa s.work.sb))

/-- `LCM rd, ra, rb` (R163). -/
def execLcm (rd _ra _rb : Reg) (s : State) : Host.Outcome State Fault Refusal :=
  let p := lcm s.work.sa s.work.sb
  if fitsWidth s.width p then .next (s.completeReg rd p) else .next (s.raise .resultOverflow)

end Sys2Proof.Machine
end

