-- ==== Sys2Proof/Machine/ModInv.lean ====
section
/-! DEFINITION. `MODINV`, the extended-Euclidean modular inverse (spec/43_modinv.md). -/

namespace Sys2Proof.Machine

/-- The two chains of R190: `(REM0, REM1)` unsigned, `(T0, T1)` signed. -/
structure EuclidChains where
  rem0 : Nat
  rem1 : Nat
  t0 : Int
  t1 : Int
deriving DecidableEq, Repr

/-- The starting values of R190, `a` reduced first. -/
def chainsStart (a m : Nat) : EuclidChains := { rem0 := m, rem1 := a % m, t0 := 0, t1 := 1 }

/-- One iteration of the loop of R190, both pairs updated at once; no change once `REM1 = 0`. -/
def chainsStep (c : EuclidChains) : EuclidChains :=
  if c.rem1 = 0 then c
  else
    let q := c.rem0 / c.rem1
    { rem0 := c.rem1, rem1 := c.rem0 - q * c.rem1, t0 := c.t1, t1 := c.t0 - q * c.t1 }

/-- The loop of R190. `REM1` strictly decreases, so fuel `REM1 + 1` is never used up. -/
def chainsLoop : Nat → EuclidChains → EuclidChains
  | 0, c => c
  | fuel + 1, c => if c.rem1 = 0 then c else chainsLoop fuel (chainsStep c)

/-- The chains at the loop's exit. -/
def chainsEnd (a m : Nat) : EuclidChains := chainsLoop (a % m + 1) (chainsStart a m)

/-- `ModInv(a, m)` for `m >= 1` (R190); `none` is `NoInverseExists`. -/
def modInv (a m : Nat) : Option Nat :=
  let c := chainsEnd a m
  if 1 < c.rem0 then none
  else some (if c.t0 < 0 then c.t0 + m else c.t0).toNat

/-- `MODINV rd, ra, rm` (R191). -/
def execModinv (rd _ra _rm : Reg) (s : State) : Host.Outcome State Fault Refusal :=
  if s.work.sm = 0 then .next (s.raise .invalidModulus)
  else
    match modInv s.work.sa s.work.sm with
    | none => .next (s.raise .noInverseExists)
    | some v => .next (s.completeReg rd v)

end Sys2Proof.Machine
end

