-- ==== Sys2Proof/Machine/ModPow.lean ====
section
/-! DEFINITION. `MODMUL`, `MODPOW` and `ENCRYPT` (spec/42_modmul_modpow.md). -/

namespace Sys2Proof.Machine

/-- The square-and-multiply loop on `(RES, BAS, EXP)` (R171): multiply into the result, shift the exponent, square the base.
The loop runs `bitlen(e)` times, which is the fuel. -/
def modPowLoop (m : Nat) : Nat → Nat → Nat → Nat → Nat
  | 0, res, _, _ => res
  | fuel + 1, res, bas, exp =>
    if exp = 0 then res
    else modPowLoop m fuel (if exp % 2 = 1 then modMul res bas m else res) (modMul bas bas m) (exp / 2)

/-- `ModPow(b, e, m)` for `m >= 1` (R171). -/
def modPow (b e m : Nat) : Nat := if m = 1 then 0 else modPowLoop m (bitlen e) 1 (b % m) e

/-- `MODMUL rd, ra, rb, rm` (R170). -/
def execModmul (rd _ra _rb _rm : Reg) (s : State) : Host.Outcome State Fault Refusal :=
  if s.work.sm = 0 then .next (s.raise .invalidModulus)
  else .next (s.completeReg rd (modMul s.work.sa s.work.sb s.work.sm))

/-- `MODPOW rd, ra, rb, rm` (R172); `DECRYPT` is the same command (R174). -/
def execModpow (rd _ra _rb _rm : Reg) (s : State) : Host.Outcome State Fault Refusal :=
  if s.work.sm = 0 then .next (s.raise .invalidModulus)
  else .next (s.completeReg rd (modPow s.work.sa s.work.sb s.work.sm))

/-- `ENCRYPT rd, ra, rb, rm` (R173): the range check comes first, so a zero modulus is `MessageTooLarge`. -/
def execEncrypt (rd _ra _rb _rm : Reg) (s : State) : Host.Outcome State Fault Refusal :=
  if s.work.sm ≤ s.work.sa then .next (s.raise .messageTooLarge)
  else .next (s.completeReg rd (modPow s.work.sa s.work.sb s.work.sm))

end Sys2Proof.Machine
end

