-- ==== Sys2Proof/Machine/MrTest.lean ====
section
/-! DEFINITION. `MRTEST`, the Miller–Rabin primality tester (spec/44_mrtest.md). One engine event of the command runs to
the next event another agent can observe (spec/10_state.md R35): a `RandRange` request, or completion. -/

namespace Sys2Proof.Machine

/-- The pre-screen (R201): the verdict of a candidate decided without any round. -/
def preScreen (n : Nat) : Option Bool :=
  if n ≤ 1 then some false
  else if n = 2 ∨ n = 3 then some true
  else if n % 2 = 0 then some false
  else none

/-- Repeated halving (R202); `D` has fewer bits each time, so fuel `bitlen(D)` is never used up. -/
def halve : Nat → Nat → Nat → Nat × Nat
  | 0, d, s => (d, s)
  | fuel + 1, d, s => if d % 2 = 0 then halve fuel (d / 2) (s + 1) else (d, s)

/-- The decomposition `n - 1 = D * 2^S`, `D` odd (R202): the pair `(D, S)`. -/
def decompose (n : Nat) : Nat × Nat := halve (bitlen (n - 1)) (n - 1) 0

/-- The squaring loop with `k` iterations left (R204): does the round pass? The test for `n - 1` comes first, the test for
1 second; a loop that ends without `n - 1` is a composite verdict. -/
def squaringsPass (n : Nat) : Nat → Nat → Bool
  | 0, _ => false
  | k + 1, x =>
    let y := modMul x x n
    if y = n - 1 then true
    else if y = 1 then false
    else squaringsPass n k y

/-- One round with witness `a` (R203, R204): true when it passes, false when `n` is definitely composite. -/
def roundPasses (n d e a : Nat) : Bool :=
  let x := modPow a d n
  if x = 1 ∨ x = n - 1 then true else squaringsPass n (e - 1) x

/-- The engine refuses an answer with `ok = 0` or a value outside `2 .. n - 2` (R203, 60_exceptions R249). -/
def badWitness (n : Nat) (ok : Bool) (a : Nat) : Bool := !ok || decide (a < 2) || decide (n - 2 < a)

/-- The top of the round loop with `rnd` rounds still to run (R200): the verdict 1, or the next request. -/
def State.nextRound (s : State) (d e rnd : Nat) : State :=
  match rnd with
  | 0 => s.completeVerdict true
  | r + 1 => s.requestWitness d e r

/-- The command's first event: pre-screen, decomposition, first round (R200, R201, R202). -/
def State.startTest (s : State) (rounds : Nat) : State :=
  match preScreen s.work.sm with
  | some b => s.completeVerdict b
  | none => s.nextRound (decompose s.work.sm).1 (decompose s.work.sm).2 rounds

/-- The event after an answer `(ok, a)`: this round, then the next one's start or completion (R200, R203, R204). -/
def State.resumeTest (s : State) (ok : Bool) (a : Nat) : State :=
  if badWitness s.work.sm ok a then s.raise .rngFailure
  else if roundPasses s.work.sm s.work.d s.work.s a then s.nextRound s.work.d s.work.s s.work.rnd
  else s.completeVerdict false

/-- `MRTEST rm, #rounds` (R200): a fresh command starts; one whose request has been answered goes on with the answer. The
candidate is the latched `SM` throughout (R206). -/
def execMrtest (_rm : Reg) (rounds : Nat) (s : State) : Host.Outcome State Fault Refusal :=
  match s.rng with
  | .answered ok a => .next (s.resumeTest ok a)
  | _ => .next (s.startTest rounds)

/-- An answer of the random source (10_state R52). -/
structure Answer where
  ok : Bool
  v : Nat
deriving DecidableEq, Repr

/-- How a whole `MRTEST` ends on a sequence of answers. -/
inductive MrResult where
  /-- The verdict written to `STATUS.PP` (R205). -/
  | verdict (b : Bool)
  /-- `RngFailure` (R203). -/
  | failed
  /-- The answers ran out with a request outstanding (60_exceptions R258). -/
  | waiting
deriving DecidableEq, Repr

/-- The round loop of R200 as one function of the answers still to come: the result and the answers not used. -/
def mrRounds (n d e : Nat) : Nat → List Answer → MrResult × List Answer
  | 0, as => (.verdict true, as)
  | _ + 1, [] => (.waiting, [])
  | r + 1, a :: as =>
    if badWitness n a.ok a.v then (.failed, as)
    else if roundPasses n d e a.v then mrRounds n d e r as
    else (.verdict false, as)

/-- The whole command of R200 as a function of the candidate, the round count and the answer sequence (00_scope R13). -/
def mrTest (n rounds : Nat) (as : List Answer) : MrResult × List Answer :=
  match preScreen n with
  | some b => (.verdict b, as)
  | none => mrRounds n (decompose n).1 (decompose n).2 rounds as

end Sys2Proof.Machine
end

