-- ==== Sys2Proof/Machine/Dispatch.lean ====
section
/-! DEFINITION. One arm per command: the running command's next engine event. -/

namespace Sys2Proof.Machine

def exec (i : Instr) (s : State) : Host.Outcome State Fault Refusal :=
  match i with
  | .gcd rd ra rb => Sys2Proof.Machine.execGcd rd ra rb s
  | .lcm rd ra rb => Sys2Proof.Machine.execLcm rd ra rb s
  | .modmul rd ra rb rm => Sys2Proof.Machine.execModmul rd ra rb rm s
  | .modpow rd ra rb rm => Sys2Proof.Machine.execModpow rd ra rb rm s
  | .encrypt rd ra rb rm => Sys2Proof.Machine.execEncrypt rd ra rb rm s
  | .modinv rd ra rm => Sys2Proof.Machine.execModinv rd ra rm s
  | .mrtest rm rounds => Sys2Proof.Machine.execMrtest rm rounds s

end Sys2Proof.Machine
end

