-- ==== Sys2Proof/Machine/Sequencer.lean ====
section
/-! DEFINITION. Which event happens (spec/10_state.md R35; spec/20_memory.md R81): the engine's turn, and the outside events. -/

namespace Sys2Proof.Machine

/-- The engine's turn. In `RUN` the command in `IR` makes its next event, and an illegal word completes with
`IllegalCommand` before anything else is examined (60_exceptions R247). In `IDLE` there is nothing to do, and in `WAIT_RNG`
the engine waits, for ever if need be (60_exceptions R258). -/
def State.engineTurn (s : State) : Host.Outcome State Fault Refusal :=
  match s.phase with
  | .idle => .next s
  | .waitRng => .next s
  | .run =>
    match s.currentCommand with
    | .ok i => exec i s
    | .illegal _ => .next (s.raise .illegalCommand)

/-- One event, already taken off the inbox (20_memory R81). -/
def State.perform (s : State) (e : Input) : Host.Outcome State Fault Refusal :=
  match e with
  | .engine => s.engineTurn
  | .read addr width => .next (s.hostRead addr width)
  | .write addr width v => .next (s.hostWrite addr width v)
  | .rngAnswer req ok v => .next (s.deliverAnswer req ok v)
  | .hardReset => .next s.engineReset

/-- The next event of the total order: the inbox's oldest, or the engine's turn when the outside has nothing (log entry 3). -/
def State.nextEvent (s : State) : Host.Outcome State Fault Refusal :=
  match s.inbox with
  | [] => s.engineTurn
  | e :: rest => State.perform { s with inbox := rest } e

/-- The command word `c` has just been accepted and the engine moves next (log entry 4). -/
def State.loadCommand (s : State) (c : Word) : State :=
  { State.accept { s with phase := .idle, rng := .idle } c with inbox := .engine :: s.inbox }

end Sys2Proof.Machine
end

