-- ==== Sys2Proof/Machine/Step.lean ====
section
/-! DEFINITION. One step of the machine is one event of the total order (spec/20_memory.md R81). -/

namespace Sys2Proof.Machine

/-- One step. -/
def step (s : State) : Host.Outcome State Fault Refusal := s.nextEvent

/-- `s` with the low `nbits` bits of `w` as the accepted command word, so that the very next step runs it. The machine
fetches nothing (10_state R34); this stands for the host's `CMD` write (log entry 4). -/
def State.withFetchWord (s : State) (nbits w : Nat) : State := s.loadCommand (BitVec.ofNat 32 (w % 2 ^ nbits))

end Sys2Proof.Machine
end

