-- ==== Sys2Proof/Machine/Driver.lean ====
section
/-! DEFINITION. The host beside the engine: the bus transactions of the host-script directives (spec/30_encoding.md R111)
and the host procedures, the codec, the prime generator and the key generator (spec/46_host_procedures.md). They are software
outside the hardware (spec/00_scope.md R5) and add no engine state; here they are plain functions. -/

namespace Sys2Proof.Driver

open Sys2Proof.Machine

/-! ### Host-script directives (30_encoding R111) -/

/-- `LOAD Gi, v`: the `L` limb writes. -/
def loadReg (limbs : Nat) (r : Reg) (v : Nat) : List Input :=
  (List.range limbs).map fun k => .write (limbAddr limbs r k) 4 (limb v k)

/-- A command line, or `.word c`: the `CMD` write. -/
def writeCommand (c : Word) : Input := .write 0x010 4 c

/-- One poll of `WAIT`: a read of `STATUS`. -/
def pollStatus : Input := .read 0x00C 4

/-- `WAIT` ends on a `STATUS` value with `BUSY = 0` and `DONE = 1`. -/
def waitOver (status : Word) : Bool := !status.getLsbD 0 && status.getLsbD 1

/-- `IFERR` branches on bit 2. -/
def branchErr (status : Word) : Bool := status.getLsbD 2

/-- `IFPP` branches on bit 3, `IFNOTPP` on its complement. -/
def branchPp (status : Word) : Bool := status.getLsbD 3

/-- `READ Gi`: the `L` limb reads. -/
def readReg (limbs : Nat) (r : Reg) : List Input :=
  (List.range limbs).map fun k => .read (limbAddr limbs r k) 4

/-- The value of `READ`: the sum of `limb_k * 2^(32k)`, the limbs in the order read. -/
def readValue : List Word → Nat
  | [] => 0
  | w :: rest => w.toNat + 2 ^ 32 * readValue rest

/-- `SRST`. -/
def softReset : Input := .write 0x008 4 0x80000000#32

/-! ### The codec (46_host_procedures R226, R227) -/

/-- `encode(bytes)`: big-endian unsigned (R226, 20_memory R76). -/
def encodeBytes (b : List Byte) : Nat := b.foldl (fun v x => v * 256 + x.toNat) 0

/-- `decode(v, n)` with the width `n` in bytes; `none` is `ValueTooLarge` (R227). -/
def decodeBytes (v n : Nat) : Option (List Byte) :=
  if 256 ^ n ≤ v then none else some ((List.range n).map fun j => BitVec.ofNat 8 (v / 256 ^ (n - 1 - j)))

/-! ### The prime generator (46_host_procedures R221 to R223) -/

/-- Why a host procedure failed (R223; the first is the model's, log entry 13). -/
inductive Failure where
  /-- The bit length is outside what R221, or for a key pair R225, asks of it. DESIGN CHOICE (log entry 13). -/
  | bitLengthOutOfRange
  /-- `PrimeGenerationExhausted` (60_exceptions R244). -/
  | primeGenerationExhausted
  /-- The engine completed with `RngFailure`. -/
  | rngFailure
  /-- The host's own random source failed: no draw is left. -/
  | hostSourceFailed
  /-- The engine waits for an answer that never comes (60_exceptions R258). -/
  | engineWaits
  /-- The engine completed with another error. -/
  | engineError (e : ErrKind)
deriving DecidableEq, Repr

/-- A candidate of `k` bits, `k >= 2`, from a uniform draw of the bits `k-2 .. 1`: top bit and low bit set (R222). -/
def candidate (k draw : Nat) : Nat := 2 ^ (k - 1) + draw % 2 ^ (k - 2) * 2 + 1

/-- The loop of `generate_prime(k)`: at most `attempts` candidates (R221, R223), over the host's draws and the engine's
answers; it returns the prime and what is left of both. `MRTEST` runs with `MR_ROUNDS` rounds. -/
def searchPrime (k : Nat) :
    Nat → List Nat → List Answer → Except Failure (Nat × List Nat × List Answer)
  | 0, _, _ => .error .primeGenerationExhausted
  | _ + 1, [], _ => .error .hostSourceFailed
  | attempts + 1, draw :: draws, as =>
    match mrTest (candidate k draw) Config.mrRounds as with
    | (.verdict true, rest) => .ok (candidate k draw, draws, rest)
    | (.verdict false, rest) => searchPrime k attempts draws rest
    | (.failed, _) => .error .rngFailure
    | (.waiting, _) => .error .engineWaits

/-- `generate_prime(k)` over an engine of width `w` (R221). `2 <= k <= w`, which R221 demands, makes every candidate fit a
general register. For another `k` the spec names no outcome; here the call fails before any draw. DESIGN CHOICE (log
entry 13). -/
def generatePrime (w k attempts : Nat) (draws : List Nat) (as : List Answer) :
    Except Failure (Nat × List Nat × List Answer) :=
  if 2 ≤ k ∧ k ≤ w then searchPrime k attempts draws as else .error .bitLengthOutOfRange

/-! ### The key generator (46_host_procedures R224, R225) -/

/-- `KeyMaterial` (R224). -/
structure KeyMaterial where
  primeA : Nat
  primeB : Nat
  modulus : Nat
  totient : Nat
  publicExponent : Nat
  privateExponent : Nat
deriving DecidableEq, Repr

/-- What R225 does with two primes of `k` bits: `none` asks for fresh ones; the engine's `LCM`, `GCD` and `MODINV` at width
`w`. The product "needs `2*bit_length <= W`", and R225 names no outcome where that fails; here the call fails at the product.
DESIGN CHOICE (log entry 13). -/
def deriveKeys (w k a b : Nat) : Except Failure (Option KeyMaterial) :=
  if a = b then .ok none
  else if w < 2 * k then .error .bitLengthOutOfRange
  else
    let totient := Machine.lcm (a - 1) (b - 1)
    if !fitsWidth w totient then .error (.engineError .resultOverflow)
    else if Machine.gcd Config.publicExponent totient ≠ 1 then .ok none
    else
      match modInv Config.publicExponent totient with
      | none => .error (.engineError .noInverseExists)
      | some d => .ok (some
          { primeA := a, primeB := b, modulus := a * b, totient := totient,
            publicExponent := Config.publicExponent, privateExponent := d })

/-- `generate_keypair(k)` (R225) over an engine of width `w`, with at most `retries` pairs and `attempts` candidates for each
prime (log entry 12); a bit length that R221 or R225 does not admit never gives a key (log entry 13). -/
def generateKeypair (w k attempts : Nat) : Nat → List Nat → List Answer → Except Failure KeyMaterial
  | 0, _, _ => .error .primeGenerationExhausted
  | retries + 1, draws, as =>
    match generatePrime w k attempts draws as with
    | .error e => .error e
    | .ok (a, draws₁, as₁) =>
      match generatePrime w k attempts draws₁ as₁ with
      | .error e => .error e
      | .ok (b, draws₂, as₂) =>
        match deriveKeys w k a b with
        | .error e => .error e
        | .ok (some key) => .ok key
        | .ok none => generateKeypair w k attempts retries draws₂ as₂

end Sys2Proof.Driver
end

