-- ==== Sys2Proof/Safety.lean ====
section
/-! DEFINITION. What the claims are stated in: how a command may end and what it leaves alone (spec/60_exceptions.md R245,
R246), the invariant of the machine, the Miller–Rabin condition in plain arithmetic, and scripts of events. -/

namespace Sys2Proof.Machine

/-- What every completion, successful or not, leaves: `DONE` set, phase `IDLE`, no request at the port, `CMDERR`, `CTRL`
and all that is not the engine's unchanged (60_exceptions R245, R246). -/
structure CompletionFrame (s t : State) : Prop where
  done : t.status.done = true
  idle : t.phase = .idle
  port : t.rng = .idle
  cmderr : t.status.cmderr = s.status.cmderr
  ctrl : t.ctrl = s.ctrl
  limbs : t.limbs = s.limbs
  inbox : t.inbox = s.inbox
  busResp : t.busResp = s.busResp
  rngSeq : t.rngSeq = s.rngSeq

/-- Successful completion with `x[rd] <- v`: every other register, `PP`, `ERR` and `ERRCODE` unchanged (R245). -/
structure CompletesReg (s t : State) (rd : Reg) (v : Nat) : Prop where
  frame : CompletionFrame s t
  result : t.reg rd = v
  others : ∀ r, r ≠ rd → t.reg r = s.reg r
  pp : t.status.pp = s.status.pp
  err : t.status.err = s.status.err
  errcode : t.status.errcode = s.status.errcode

/-- Successful completion with `STATUS.PP <- b`: no register is written (R245). -/
structure CompletesVerdict (s t : State) (b : Bool) : Prop where
  frame : CompletionFrame s t
  regs : ∀ r, t.reg r = s.reg r
  pp : t.status.pp = b
  err : t.status.err = s.status.err
  errcode : t.status.errcode = s.status.errcode

/-- Completion with error `e`: no register is written, `PP` is unchanged (R246). -/
structure CompletesError (s t : State) (e : ErrKind) : Prop where
  frame : CompletionFrame s t
  regs : ∀ r, t.reg r = s.reg r
  pp : t.status.pp = s.status.pp
  err : t.status.err = true
  errcode : t.status.errcode = e.code

/-- The state while `MRTEST` waits for a witness: the request `RandRange(2, n - 2)` is out, `n - 1 = D * 2^S` with `D` odd,
`rnd` rounds are left after this one, and nothing the host can see has changed but `BUSY` (10_state R35, 44_mrtest R202,
R203). -/
structure AsksWitness (s t : State) (rnd : Nat) : Prop where
  waits : t.phase = .waitRng
  request : t.rng = .requested 2 (s.work.sm - 2)
  number : t.rngSeq = s.rngSeq + 1
  candidate : t.work.sm = s.work.sm
  command : t.work.ir = s.work.ir
  split : t.work.d * 2 ^ t.work.s = s.work.sm - 1
  odd : t.work.d % 2 = 1
  rounds : t.work.rnd = rnd
  regs : ∀ r, t.reg r = s.reg r
  status : t.status = s.status
  ctrl : t.ctrl = s.ctrl
  limbs : t.limbs = s.limbs
  inbox : t.inbox = s.inbox
  busResp : t.busResp = s.busResp

/-- The witness `a` shows nothing against `n`, where `n - 1 = d * 2^e`: `a^d` is 1, or some `a^(d*2^j)` with `j < e` is
`n - 1` modulo `n` (44_mrtest R203, R204, R207). -/
def PassesRound (n d e a : Nat) : Prop := a ^ d % n = 1 ∨ ∃ j, j < e ∧ a ^ (d * 2 ^ j) % n = n - 1

/-- A value the random source may answer by its contract (10_state R52). -/
def ContractAnswer (n : Nat) (a : Answer) : Prop := a.ok = true ∧ 2 ≤ a.v ∧ a.v ≤ n - 2

/-- The error codes the engine places in `ERRCODE` (60_exceptions R240, R244). -/
def engineCodes : List (BitVec 8) := [0x01#8, 0x02#8, 0x03#8, 0x10#8, 0x11#8, 0x12#8]

/-- Every working register is within its width (10_state R48). -/
structure Work.Fits (w : Nat) (k : Work) : Prop where
  sa : k.sa < 2 ^ w
  sb : k.sb < 2 ^ w
  sm : k.sm < 2 ^ w
  u : k.u < 2 ^ w
  v : k.v < 2 ^ w
  res : k.res < 2 ^ w
  bas : k.bas < 2 ^ w
  exp : k.exp < 2 ^ w
  prod : k.prod < 2 ^ (2 * w)
  rem0 : k.rem0 < 2 ^ w
  rem1 : k.rem1 < 2 ^ w
  t0 : -2 ^ (w + 1) ≤ k.t0 ∧ k.t0 < 2 ^ (w + 1)
  t1 : -2 ^ (w + 1) ≤ k.t1 ∧ k.t1 < 2 ^ (w + 1)
  q : k.q < 2 ^ w
  d : k.d < 2 ^ w
  s : k.s < 2 ^ countWidth w
  x : k.x < 2 ^ w
  rnd : k.rnd < 2 ^ 8
  j : k.j < 2 ^ countWidth w

/-- What holds between two events of one `MRTEST` (44_mrtest R202, R206). -/
structure MidTest (s : State) : Prop where
  command : ∃ rm rounds, decode s.work.ir = .ok (.mrtest rm rounds) ∧ s.work.rnd < rounds
  large : 5 ≤ s.work.sm
  odd : s.work.sm % 2 = 1
  split : s.work.d * 2 ^ s.work.s = s.work.sm - 1
  oddPart : s.work.d % 2 = 1

/-- The invariant of the machine: widths (00_scope R6, 10_state R30, R48), the flags' consistency (10_state R43, R46), the
codes that can stand in `ERRCODE` (60_exceptions R240), and the port's agreement with the phase (10_state R35, R52). -/
structure Inv (s : State) : Prop where
  limbsMin : Config.minLimbs ≤ s.limbs
  limbsMax : s.limbs ≤ Config.maxLimbs
  regsFit : ∀ r, s.reg r < 2 ^ s.width
  workFits : s.work.Fits s.width
  noErrorNoCode : s.status.err = false → s.status.errcode = 0
  errorCode : s.status.err = true → s.status.errcode ∈ engineCodes
  busyFlagsClear : s.phase ≠ .idle → s.status.done = false ∧ s.status.err = false
  idlePort : s.phase = .idle → s.rng = .idle
  waitPort : s.phase = .waitRng → s.rng = .requested 2 (s.work.sm - 2) ∧ MidTest s
  runPort : s.phase = .run →
    s.rng = .idle ∨ ∃ ok v, s.rng = .answered ok v ∧ v < 2 ^ s.width ∧ MidTest s

/-- The state of a command just accepted: running, no request made yet. -/
structure JustAccepted (s : State) (i : Instr) : Prop where
  runs : s.phase = .run
  port : s.rng = .idle
  command : decode s.work.ir = .ok i

/-- The register a command may write (30_encoding R104, 10_state R31): `MRTEST` writes none. -/
def destination : Instr → Option Reg
  | .gcd rd _ _ => some rd
  | .lcm rd _ _ => some rd
  | .modmul rd _ _ _ => some rd
  | .modpow rd _ _ _ => some rd
  | .encrypt rd _ _ _ => some rd
  | .modinv rd _ _ => some rd
  | .mrtest _ _ => none

/-- The next event is the engine's. -/
def State.engineMoves (s : State) : Prop := s.inbox = [] ∨ ∃ rest, s.inbox = .engine :: rest

/-- The next event is a reset: the hard reset input, or a `CTRL` write with bit 31 set (70_reset R270). -/
def State.resets (s : State) : Prop :=
  ∃ rest, s.inbox = .hardReset :: rest ∨ ∃ v, v.getLsbD 31 = true ∧ s.inbox = .write 0x008 4 v :: rest

/-- The running word is an `MRTEST`. -/
def State.runsTest (s : State) : Prop := s.phase = .run ∧ ∃ rm rounds, decode s.work.ir = .ok (.mrtest rm rounds)

/-- Every piece of the engine's state at its value of 10_state R55. -/
structure AtReset (t : State) : Prop where
  regs : ∀ r, t.reg r = 0
  phase : t.phase = .idle
  ctrl : t.ctrlWord = 0
  status : t.statusWord = 0
  work : t.work = Work.zero
  port : t.rng = .idle
  irq : t.irq = false

/-- The outside gives the engine its turn and answers each of its requests, numbered from `k` on, in order. -/
def testScript : Nat → List Answer → List Input
  | _, [] => [.engine]
  | k, a :: as => .engine :: .rngAnswer k a.ok a.v :: testScript (k + 1) as

/-- `s` with these events to come, before those it already has. -/
def State.withScript (s : State) (es : List Input) : State := { s with inbox := es ++ s.inbox }

end Sys2Proof.Machine
end

