-- ==== Sys2Proof/Certificates/Slice0/Obligations.lean ====
section
/-! DEFINITION. The statements about the MRNT engine that the provers settle. `exec i s` is the running command's next
engine event; its sources are the latched `SA`, `SB`, `SM` of `s.work` (spec/10_state.md R47). A statement that rests on a
choice of the model says so and names the log entry. -/

open Sys2Proof Sys2Proof.Machine

/-! ### Encoding (30_encoding) -/

/-- R108: decode after encode is the identity, for every command and every operand the encoding admits. -/
def Obligations.DecodeAfterEncodeIsIdentity : Prop :=
  ∀ i : Instr, i.wellFormed = true → decode (encode i) = .ok i

/-- R108: encode after decode is the identity on every legal word, and what is decoded is well formed. -/
def Obligations.EncodeAfterDecodeIsIdentity : Prop :=
  ∀ (c : Word) (i : Instr), decode c = .ok i → i.wellFormed = true ∧ encode i = c

/-- R104: a word is the command of a row exactly when `c AND mask = match`, row by row with the table's own numbers. Rows
do not overlap, since a word decodes to one command. -/
def Obligations.DecoderAgreesWithOpcodeTable : Prop :=
  ∀ c : Word,
    ((∃ rd ra rb, decode c = .ok (.gcd rd ra rb)) ↔ c &&& 0xFFFFF007#32 = 0x01000000#32) ∧
    ((∃ rd ra rb, decode c = .ok (.lcm rd ra rb)) ↔ c &&& 0xFFFFF007#32 = 0x02000000#32) ∧
    ((∃ rd ra rb rm, decode c = .ok (.modmul rd ra rb rm)) ↔ c &&& 0xFFFFF000#32 = 0x03000000#32) ∧
    ((∃ rd ra rb rm, decode c = .ok (.modpow rd ra rb rm)) ↔ c &&& 0xFFFFF000#32 = 0x04000000#32) ∧
    ((∃ rd ra rb rm, decode c = .ok (.encrypt rd ra rb rm)) ↔ c &&& 0xFFFFF000#32 = 0x05000000#32) ∧
    ((∃ rd ra rm, decode c = .ok (.modinv rd ra rm)) ↔ c &&& 0xFFFFF038#32 = 0x06000000#32) ∧
    ((∃ rm rounds, decode c = .ok (.mrtest rm rounds)) ↔ c &&& 0xFF00FFF8#32 = 0x07000000#32)

/-- R104, R109: words written out from the spec's encodings, one of each row. -/
def Obligations.TableWordsDecode : Prop :=
  decode 0x01000408#32 = .ok (.gcd 2 0 1) ∧ decode 0x02000408#32 = .ok (.lcm 2 0 1) ∧
  decode 0x0300060A#32 = .ok (.modmul 3 0 1 2) ∧ decode 0x0400060A#32 = .ok (.modpow 3 0 1 2) ∧
  decode 0x05000A19#32 = .ok (.encrypt 5 0 3 1) ∧ decode 0x060008C2#32 = .ok (.modinv 4 3 2) ∧
  decode 0x070A0002#32 = .ok (.mrtest 2 10)

/-- R105, R106, R107: opcodes `0x00` and `0x08`..`0xFF`, a non-zero `rsv`, and a non-zero must-be-zero field of a defined
opcode are illegal. -/
def Obligations.ReservedWordsAreIllegal : Prop :=
  ∀ c : Word,
    (bits 31 24 c = 0 ∨ 8 ≤ bits 31 24 c ∨ bits 15 12 c ≠ 0 ∨
      (bits 31 24 c ≠ 7 ∧ bits 23 16 c ≠ 0) ∨
      ((bits 31 24 c = 1 ∨ bits 31 24 c = 2) ∧ regField 0 c ≠ 0) ∨
      (bits 31 24 c = 6 ∧ regField 3 c ≠ 0) ∨
      (bits 31 24 c = 7 ∧ (regField 9 c ≠ 0 ∨ regField 6 c ≠ 0 ∨ regField 3 c ≠ 0))) →
    ∃ why, decode c = .illegal why

/-! ### Events: acceptance, the engine's turn, the bus (10_state, 20_memory, 60_exceptions) -/

/-- R247: an illegal word written to `CMD` is accepted, and the engine's next event completes it with `IllegalCommand`,
whatever the registers hold. -/
def Obligations.IllegalWordCompletesWithIllegalCommand : Prop :=
  ∀ (s : State) (c : Word) (why : DecodeError) (rest : List Input),
    s.phase = .idle → decode c = .illegal why → s.inbox = .write 0x010 4 c :: .engine :: rest →
    ∃ a t, step s = .next a ∧ a.work.ir = c ∧ a.phase = .run ∧ step a = .next t ∧
      CompletesError { a with inbox := rest } t .illegalCommand ∧
      (∀ r, t.reg r = s.reg r) ∧ t.status.pp = s.status.pp

/-- The engine's turn in phase `RUN` is `exec` of the decoded command (10_state R35, R48). That the turn comes when the
inbox is empty, or says so, is the model's choice (log entries 2 and 3). -/
def Obligations.StepRunsDecodedCommand : Prop :=
  ∀ (s : State) (i : Instr), s.phase = .run → decode s.work.ir = .ok i →
    (s.inbox = [] → step s = exec i s) ∧
    (∀ rest, s.inbox = .engine :: rest → step s = exec i { s with inbox := rest })

/-- The step after `withFetchWord` runs exactly that command, freshly accepted (10_state R46; log entry 4). -/
def Obligations.FetchWordStepRunsCommand : Prop :=
  ∀ (s : State) (w : Nat) (i : Instr), decodeTableWord 32 w = some i → w < 2 ^ 32 →
    step (s.withFetchWord 32 w) =
      exec i (State.accept { s with phase := .idle, rng := .idle } (BitVec.ofNat 32 w))

/-- R46: acceptance of a command word. -/
def Obligations.CommandWriteIsAcceptance : Prop :=
  ∀ (s : State) (c : Word) (rest : List Input),
    s.phase = .idle → s.inbox = .write 0x010 4 c :: rest →
    ∃ t, step s = .next t ∧ t.work.ir = c ∧ t.work.sa = s.reg (regField 6 c) ∧ t.work.sb = s.reg (regField 3 c) ∧
      t.work.sm = s.reg (regField 0 c) ∧ t.status.done = false ∧ t.status.err = false ∧ t.status.errcode = 0 ∧
      t.phase = .run ∧ t.statusWord.getLsbD 0 = true ∧ t.status.pp = s.status.pp ∧
      t.status.cmderr = s.status.cmderr ∧ (∀ r, t.reg r = s.reg r) ∧ t.ctrl = s.ctrl ∧ t.rng = s.rng ∧
      t.limbs = s.limbs ∧ t.inbox = rest ∧ t.busResp = .ok

/-- R79: while busy, reads of every mapped register return the current state, writes to `CTRL` and `STATUS` act as always,
and a write to a limb or to `CMD` is dropped: only `CMDERR` changes, and the response is no bus error. A general register
keeps the value it had at acceptance while the engine stays busy. -/
def Obligations.BusyWritesAreDropped : Prop :=
  ∀ (s : State), s.phase ≠ .idle →
    (∀ (addr : Nat) (v : Word) (rest : List Input), s.inbox = .write addr 4 v :: rest →
      (addr = 0x010 ∨ ∃ r k, busTarget s.limbs addr 4 = some (.limb r k)) →
      ∃ t, step s = .next t ∧ (∀ r, t.reg r = s.reg r) ∧ t.phase = s.phase ∧ t.work = s.work ∧ t.rng = s.rng ∧
        t.ctrl = s.ctrl ∧ t.status.cmderr = true ∧ t.status.done = s.status.done ∧ t.status.err = s.status.err ∧
        t.status.pp = s.status.pp ∧ t.status.errcode = s.status.errcode ∧ t.busResp = .ok ∧ t.inbox = rest) ∧
    (∀ (v : Word) (rest : List Input), v.getLsbD 31 = false → s.inbox = .write 0x008 4 v :: rest →
      ∃ t, step s = .next t ∧ t.ctrl.ieDone = v.getLsbD 0 ∧ t.ctrl.ieErr = v.getLsbD 1 ∧
        t.status = s.status ∧ t.phase = s.phase) ∧
    (∀ (v : Word) (rest : List Input), s.inbox = .write 0x00C 4 v :: rest →
      ∃ t, step s = .next t ∧ t.status = s.status.written v ∧ t.phase = s.phase) ∧
    (∀ (addr : Nat) (target : Target) (rest : List Input), busTarget s.limbs addr 4 = some target →
      s.inbox = .read addr 4 :: rest →
      ∃ t, step s = .next t ∧ t = { s with inbox := rest, busResp := .data (s.readTarget target) }) ∧
    (∀ (r : Reg) (k : Nat), s.readTarget (.limb r k) = BitVec.ofNat 32 (s.reg r / 2 ^ (32 * k))) ∧
    (∀ t, step s = .next t → t.phase ≠ .idle → ∀ r, t.reg r = s.reg r)

/-- R73: an access of another width, a misaligned one, or one to an unmapped offset gets the bus error response and changes
no engine state. -/
def Obligations.BadBusAccessChangesNothing : Prop :=
  ∀ (s : State) (addr width : Nat) (rest : List Input),
    (width ≠ 4 ∨ addr % 4 ≠ 0 ∨ (0x014 ≤ addr ∧ addr ≤ 0x0FF) ∨ 0x100 + 8 * stride s.limbs ≤ addr) →
    s.busRead addr width = none ∧
    (s.inbox = .read addr width :: rest → step s = .next { s with inbox := rest, busResp := .error }) ∧
    (∀ v, s.inbox = .write addr width v :: rest → step s = .next { s with inbox := rest, busResp := .error })

/-- R71: the register map, at every `L`. -/
def Obligations.RegisterMapIsExact : Prop :=
  ∀ L : Nat,
    busTarget L 0x000 4 = some .id ∧ busTarget L 0x004 4 = some .cfg ∧ busTarget L 0x008 4 = some .ctrl ∧
    busTarget L 0x00C 4 = some .status ∧ busTarget L 0x010 4 = some .cmd ∧
    (∀ addr, 0x014 ≤ addr → addr ≤ 0x0FF → busTarget L addr 4 = none) ∧
    (∀ (i : Reg) (k : Nat), k < L → busTarget L (0x100 + i.val * stride L + 4 * k) 4 = some (.limb i k)) ∧
    (∀ addr, 0x100 + 8 * stride L ≤ addr → busTarget L addr 4 = none) ∧
    (∀ addr r k, busTarget L addr 4 = some (.limb r k) → k < L ∧ addr = 0x100 + r.val * stride L + 4 * k) ∧
    (∀ r : Reg, limbAddr 16 r 0 = 0x100 + 0x40 * r.val)

/-- R40 to R43 and R74: what `ID`, `CFG`, `CTRL`, `STATUS` and `CMD` read as, reserved bits included. -/
def Obligations.ControlRegistersReadTheirFields : Prop :=
  ∀ s : State, s.limbs ≤ Config.maxLimbs →
    s.busRead 0x000 4 = some 0x4D524E54#32 ∧
    (∃ c, s.busRead 0x004 4 = some c ∧ bits 7 0 c = s.limbs ∧ bits 11 8 c = 8 ∧ bits 31 12 c = 0) ∧
    (∃ c, s.busRead 0x008 4 = some c ∧ c.getLsbD 0 = s.ctrl.ieDone ∧ c.getLsbD 1 = s.ctrl.ieErr ∧ bits 31 2 c = 0) ∧
    (∃ c, s.busRead 0x00C 4 = some c ∧ c.getLsbD 0 = decide (s.phase ≠ .idle) ∧ c.getLsbD 1 = s.status.done ∧
      c.getLsbD 2 = s.status.err ∧ c.getLsbD 3 = s.status.pp ∧ c.getLsbD 4 = s.status.cmderr ∧ bits 7 5 c = 0 ∧
      bits 15 8 c = s.status.errcode.toNat ∧ bits 31 16 c = 0) ∧
    s.busRead 0x010 4 = some 0#32

/-- R74: a write to `ID` or `CFG` is ignored without error. -/
def Obligations.ReadOnlyWritesAreIgnored : Prop :=
  ∀ (s : State) (addr : Nat) (v : Word) (rest : List Input),
    (addr = 0x000 ∨ addr = 0x004) → s.inbox = .write addr 4 v :: rest →
    step s = .next { s with inbox := rest, busResp := .ok }

/-- R44: the write-1-to-clear bits of `STATUS`, at any time; a completion after the write sets `DONE` again. -/
def Obligations.StatusWriteOneToClear : Prop :=
  ∀ (s : State) (v : Word) (rest : List Input), s.inbox = .write 0x00C 4 v :: rest →
    ∃ t, step s = .next t ∧
      t.status.done = (if v.getLsbD 1 then false else s.status.done) ∧
      t.status.err = (if v.getLsbD 2 then false else s.status.err) ∧
      t.status.errcode = (if v.getLsbD 2 then 0 else s.status.errcode) ∧
      t.status.cmderr = (if v.getLsbD 4 then false else s.status.cmderr) ∧
      t.status.pp = s.status.pp ∧ t.phase = s.phase ∧ (∀ r, t.reg r = s.reg r) ∧ t.ctrl = s.ctrl ∧
      t.work = s.work ∧ t.rng = s.rng ∧ t.busResp = .ok ∧
      (∀ i u, exec i t = .next u → u.phase = .idle → u.status.done = true)

/-- R42: a `CTRL` write with bit 31 clear sets the two enables, busy or not, and nothing else. -/
def Obligations.ControlWriteSetsEnables : Prop :=
  ∀ (s : State) (v : Word) (rest : List Input), v.getLsbD 31 = false → s.inbox = .write 0x008 4 v :: rest →
    step s = .next { s with
      inbox := rest, busResp := .ok, ctrl := { ieDone := v.getLsbD 0, ieErr := v.getLsbD 1 } }

/-- R77, R75: a limb write while idle changes that limb only. -/
def Obligations.LimbWriteChangesThatLimbOnly : Prop :=
  ∀ (s : State) (addr : Nat) (v : Word) (rest : List Input) (r : Reg) (k : Nat),
    s.phase = .idle → busTarget s.limbs addr 4 = some (.limb r k) → s.inbox = .write addr 4 v :: rest →
    ∃ t, step s = .next t ∧ limb (t.reg r) k = v ∧ (∀ j, j ≠ k → limb (t.reg r) j = limb (s.reg r) j) ∧
      (∀ r', r' ≠ r → t.reg r' = s.reg r') ∧ t.status = s.status ∧ t.ctrl = s.ctrl ∧ t.phase = s.phase ∧
      t.work = s.work ∧ t.rng = s.rng ∧ t.busResp = .ok

/-- R75: a register is the sum of its limbs, little-endian. -/
def Obligations.RegisterIsSumOfLimbs : Prop :=
  ∀ v L : Nat, v < 2 ^ (32 * L) → v = ∑ k ∈ Finset.range L, (limb v k).toNat * 2 ^ (32 * k)

/-- 30_encoding R111: the bus transactions of `LOAD` set the register to the value and nothing else. -/
def Obligations.LoadDirectiveSetsRegister : Prop :=
  ∀ (s : State) (r : Reg) (v : Nat), s.phase = .idle → v < 2 ^ s.width → s.reg r < 2 ^ s.width →
    ∃ t, Sys2Proof.core.run s.limbs (s.withScript (Driver.loadReg s.limbs r v)) = .next t ∧ t.reg r = v ∧
      (∀ r', r' ≠ r → t.reg r' = s.reg r') ∧ t.status = s.status ∧ t.ctrl = s.ctrl ∧ t.phase = .idle ∧
      t.inbox = s.inbox

/-- From the write of a command word in phase `IDLE` with no request outstanding: acceptance, then the engine's event,
leave the result computed from the registers the word names (10_state R46, R47; 30_encoding R101, R104). -/
def Obligations.WrittenCommandComputesFromItsRegisters : Prop :=
  ∀ (s : State) (rd ra rb rm : Reg) (rest : List Input), s.phase = .idle → s.rng = .idle →
    (s.inbox = .write 0x010 4 (encode (.gcd rd ra rb)) :: .engine :: rest →
      ∃ t, Sys2Proof.core.run 2 s = .next t ∧ t.reg rd = Nat.gcd (s.reg ra) (s.reg rb) ∧
        (∀ r, r ≠ rd → t.reg r = s.reg r) ∧ t.phase = .idle ∧ t.status.done = true ∧ t.status.err = false) ∧
    (s.inbox = .write 0x010 4 (encode (.modmul rd ra rb rm)) :: .engine :: rest → s.reg rm ≠ 0 →
      ∃ t, Sys2Proof.core.run 2 s = .next t ∧ t.reg rd = s.reg ra * s.reg rb % s.reg rm ∧
        (∀ r, r ≠ rd → t.reg r = s.reg r) ∧ t.phase = .idle ∧ t.status.done = true ∧ t.status.err = false) ∧
    (s.inbox = .write 0x010 4 (encode (.modpow rd ra rb rm)) :: .engine :: rest → s.reg rm ≠ 0 →
      ∃ t, Sys2Proof.core.run 2 s = .next t ∧ t.reg rd = s.reg ra ^ s.reg rb % s.reg rm ∧
        (∀ r, r ≠ rd → t.reg r = s.reg r) ∧ t.phase = .idle ∧ t.status.done = true ∧ t.status.err = false) ∧
    (s.inbox = .write 0x010 4 (encode (.encrypt rd ra rb rm)) :: .engine :: rest → s.reg rm ≤ s.reg ra →
      ∃ t, Sys2Proof.core.run 2 s = .next t ∧ (∀ r, t.reg r = s.reg r) ∧ t.phase = .idle ∧
        t.status.done = true ∧ t.status.err = true ∧ t.status.errcode = 0x03#8)

/-! ### Reset (10_state R55, 70_reset) -/

/-- R55: every piece of state after reset, at the default width. -/
def Obligations.ResetStateHasTheSpecsValues : Prop :=
  AtReset State.reset ∧ State.reset.width = 512 ∧ State.reset.busRead 0x000 4 = some 0x4D524E54#32 ∧
    State.reset.busRead 0x004 4 = some 0x00000810#32

/-- R270, R271: the hard reset input and a `CTRL` write with bit 31 set, at any time, have the same effect: every piece of
state takes its value of R55, `CFG` (so `L`) being a constant; the bus write completes without error and its other data bits are
ignored. -/
def Obligations.ResetSetsEveryPieceOfState : Prop :=
  ∀ (s : State) (rest : List Input),
    (s.inbox = .hardReset :: rest → ∃ t, step s = .next t ∧ AtReset t ∧ t.limbs = s.limbs) ∧
    (∀ v : Word, v.getLsbD 31 = true → s.inbox = .write 0x008 4 v :: rest →
      ∃ t, step s = .next t ∧ AtReset t ∧ t.limbs = s.limbs ∧ t.busResp = .ok)

/-- 70_reset R272 (and 10_state R52): a reset withdraws the outstanding request without a completion, and an answer to a
withdrawn request is never taken for a later one: requests are numbered upwards and an answer with another number, or with no
request outstanding, changes nothing. The numbering is the model's choice (log entry 6). -/
def Obligations.LateAnswersAreIgnored : Prop :=
  (∀ s t, step s = .next t → s.rngSeq ≤ t.rngSeq) ∧
  (∀ s t, step s = .next t → s.phase ≠ .waitRng → t.phase = .waitRng → t.rngSeq = s.rngSeq + 1) ∧
  (∀ (s : State) (req : Nat) (ok : Bool) (v : Nat) (rest : List Input), s.inbox = .rngAnswer req ok v :: rest →
    (s.phase ≠ .waitRng ∨ req ≠ s.rngSeq) → step s = .next { s with inbox := rest }) ∧
  (∀ s t, s.phase = .waitRng → s.resets → step s = .next t →
    t.phase = .idle ∧ t.rng = .idle ∧ t.status.done = false ∧ t.irq = false)

/-! ### The sequencer (10_state R35, 60_exceptions R258) -/

/-- The machine never stops: every step answers a next state (60_exceptions R246, R258; 20_memory R73). -/
def Obligations.EveryStepHasANextState : Prop := ∀ s : State, ∃ t, step s = .next t

/-- R35: the phase transitions, each with its event. -/
def Obligations.PhaseTransitionsAreTheListedOnes : Prop :=
  ∀ s t : State, step s = .next t → t.phase ≠ s.phase →
    (s.phase = .idle ∧ t.phase = .run ∧ ∃ c rest, s.inbox = .write 0x010 4 c :: rest ∧ t.work.ir = c) ∨
    (s.runsTest ∧ s.engineMoves ∧ t.phase = .waitRng ∧ t.rng = .requested 2 (s.work.sm - 2)) ∨
    (s.phase = .waitRng ∧ t.phase = .run ∧ ∃ ok v rest, s.inbox = .rngAnswer s.rngSeq ok v :: rest) ∨
    (s.phase = .run ∧ s.engineMoves ∧ t.phase = .idle ∧ t.status.done = true) ∨
    (s.resets ∧ t.phase = .idle)

/-- R258: a test in `WAIT_RNG` stays there until its answer or a reset, for ever if none comes, and no other command
waits. -/
def Obligations.WaitsUntilAnsweredOrReset : Prop :=
  (∀ s t, s.phase = .waitRng → step s = .next t → t.phase ≠ .waitRng →
    s.resets ∨ ∃ ok v rest, s.inbox = .rngAnswer s.rngSeq ok v :: rest) ∧
  (∀ (s : State) (k : Nat), s.phase = .waitRng → s.inbox = [] → Sys2Proof.core.run k s = .next s) ∧
  (∀ (i : Instr) (s t : State), (∀ rm rounds, i ≠ .mrtest rm rounds) → exec i s = .next t → t.phase = .idle)

/-- The invariant holds of the reset state (10_state R55). -/
def Obligations.InvariantHoldsAtReset : Prop := Inv State.reset

/-- Every step keeps the invariant: widths, the flags' consistency, the codes of `ERRCODE`, and the agreement of phase, port
and the facts an `MRTEST` carries from one round to the next. -/
def Obligations.EveryStepKeepsTheInvariant : Prop := ∀ s t : State, Inv s → step s = .next t → Inv t

/-! ### The commands (41_gcd_lcm, 42_modmul_modpow, 43_modinv, 44_mrtest) -/

/-- R161: `GCD`. -/
def Obligations.GcdCommand : Prop :=
  ∀ rd ra rb : Reg,
    (bits 31 24 (encode (.gcd rd ra rb)) = 0x01 ∧ bits 23 16 (encode (.gcd rd ra rb)) = 0 ∧
      regField 0 (encode (.gcd rd ra rb)) = 0) ∧
    ∀ s : State, ∃ t, exec (.gcd rd ra rb) s = .next t ∧ CompletesReg s t rd (Nat.gcd s.work.sa s.work.sb)

/-- R163: `LCM`, with `ResultOverflow` exactly when the least common multiple does not fit `W` bits. -/
def Obligations.LcmCommand : Prop :=
  ∀ rd ra rb : Reg,
    (bits 31 24 (encode (.lcm rd ra rb)) = 0x02 ∧ bits 23 16 (encode (.lcm rd ra rb)) = 0 ∧
      regField 0 (encode (.lcm rd ra rb)) = 0) ∧
    ∀ s : State, ∃ t, exec (.lcm rd ra rb) s = .next t ∧
      (Nat.lcm s.work.sa s.work.sb < 2 ^ s.width → CompletesReg s t rd (Nat.lcm s.work.sa s.work.sb)) ∧
      (2 ^ s.width ≤ Nat.lcm s.work.sa s.work.sb → CompletesError s t .resultOverflow)

/-- R170: `MODMUL`, with `InvalidModulus` exactly when `SM = 0`. -/
def Obligations.ModmulCommand : Prop :=
  ∀ rd ra rb rm : Reg,
    (bits 31 24 (encode (.modmul rd ra rb rm)) = 0x03 ∧ bits 23 16 (encode (.modmul rd ra rb rm)) = 0) ∧
    ∀ s : State, ∃ t, exec (.modmul rd ra rb rm) s = .next t ∧
      (s.work.sm = 0 → CompletesError s t .invalidModulus) ∧
      (s.work.sm ≠ 0 → CompletesReg s t rd (s.work.sa * s.work.sb % s.work.sm))

/-- R172: `MODPOW`, with `InvalidModulus` exactly when `SM = 0`; `b^0` is 1 for every `b`, and modulus 1 gives 0. -/
def Obligations.ModpowCommand : Prop :=
  ∀ rd ra rb rm : Reg,
    (bits 31 24 (encode (.modpow rd ra rb rm)) = 0x04 ∧ bits 23 16 (encode (.modpow rd ra rb rm)) = 0) ∧
    ∀ s : State, ∃ t, exec (.modpow rd ra rb rm) s = .next t ∧
      (s.work.sm = 0 → CompletesError s t .invalidModulus) ∧
      (s.work.sm ≠ 0 → CompletesReg s t rd (s.work.sa ^ s.work.sb % s.work.sm))

/-- R173: `ENCRYPT`, with `MessageTooLarge` exactly when `SA >= SM`, a zero modulus included. -/
def Obligations.EncryptCommand : Prop :=
  ∀ rd ra rb rm : Reg,
    (bits 31 24 (encode (.encrypt rd ra rb rm)) = 0x05 ∧ bits 23 16 (encode (.encrypt rd ra rb rm)) = 0) ∧
    ∀ s : State, ∃ t, exec (.encrypt rd ra rb rm) s = .next t ∧
      (s.work.sm ≤ s.work.sa → CompletesError s t .messageTooLarge) ∧
      (s.work.sa < s.work.sm → CompletesReg s t rd (s.work.sa ^ s.work.sb % s.work.sm))

/-- R191, R193: `MODINV`: the errors exactly where the rule names them, 0 for modulus 1, else the inverse in `0 .. SM - 1`. -/
def Obligations.ModinvCommand : Prop :=
  ∀ rd ra rm : Reg,
    (bits 31 24 (encode (.modinv rd ra rm)) = 0x06 ∧ bits 23 16 (encode (.modinv rd ra rm)) = 0 ∧
      regField 3 (encode (.modinv rd ra rm)) = 0) ∧
    ∀ s : State, ∃ t, exec (.modinv rd ra rm) s = .next t ∧
      (s.work.sm = 0 → CompletesError s t .invalidModulus) ∧
      (s.work.sm = 1 → CompletesReg s t rd 0) ∧
      (2 ≤ s.work.sm → Nat.gcd s.work.sa s.work.sm ≠ 1 → CompletesError s t .noInverseExists) ∧
      (2 ≤ s.work.sm → Nat.gcd s.work.sa s.work.sm = 1 →
        ∃ x, CompletesReg s t rd x ∧ x < s.work.sm ∧ s.work.sa * x % s.work.sm = 1)

/-- R200, R201, R202, R208: the first event of `MRTEST`: the pre-screen's verdicts, the verdict 1 for no rounds, or the
decomposition and the first request. -/
def Obligations.MrtestFirstEvent : Prop :=
  ∀ (rm : Reg) (rounds : Nat) (s : State), (∀ ok v, s.rng ≠ .answered ok v) →
    ∃ t, exec (.mrtest rm rounds) s = .next t ∧
      (s.work.sm ≤ 1 → CompletesVerdict s t false) ∧
      (s.work.sm = 2 ∨ s.work.sm = 3 → CompletesVerdict s t true) ∧
      (4 ≤ s.work.sm → s.work.sm % 2 = 0 → CompletesVerdict s t false) ∧
      (5 ≤ s.work.sm → s.work.sm % 2 = 1 → rounds = 0 → CompletesVerdict s t true) ∧
      (5 ≤ s.work.sm → s.work.sm % 2 = 1 → ∀ k, rounds = k + 1 → AsksWitness s t k)

/-- R203, R204, R205: one round of `MRTEST` with its answer in hand: `RngFailure` on a bad answer; the composite verdict at
once when the witness shows it; else the verdict 1 after the last round, or the next request. -/
def Obligations.MrtestRoundEvent : Prop :=
  ∀ (rm : Reg) (rounds : Nat) (s : State) (ok : Bool) (a : Nat), s.rng = .answered ok a →
    5 ≤ s.work.sm → s.work.sm % 2 = 1 → s.work.d * 2 ^ s.work.s = s.work.sm - 1 → s.work.d % 2 = 1 →
    ∃ t, exec (.mrtest rm rounds) s = .next t ∧
      (ok = false ∨ a < 2 ∨ s.work.sm - 2 < a → CompletesError s t .rngFailure) ∧
      (ok = true → 2 ≤ a → a ≤ s.work.sm - 2 →
        (¬ PassesRound s.work.sm s.work.d s.work.s a → CompletesVerdict s t false) ∧
        (PassesRound s.work.sm s.work.d s.work.s a → s.work.rnd = 0 → CompletesVerdict s t true) ∧
        (PassesRound s.work.sm s.work.d s.work.s a → ∀ k, s.work.rnd = k + 1 → AsksWitness s t k))

/-- A whole `MRTEST` on the machine, event by event, ends as the one function of candidate, rounds and answers does
(44_mrtest R200, R205; 00_scope R13), for every sequence of answers. How the answers stand in the inbox is the model's choice
(log entries 2 and 6). -/
def Obligations.MrtestRunMatchesWholeCommand : Prop :=
  ∀ (s : State) (rm : Reg) (rounds : Nat) (as : List Answer),
    JustAccepted s (.mrtest rm rounds) → (∀ a ∈ as, a.v < 2 ^ s.width) →
    ∃ t, Sys2Proof.core.run (2 * as.length + 1) (s.withScript (testScript (s.rngSeq + 1) as)) = .next t ∧
      (∀ r, t.reg r = s.reg r) ∧ t.ctrl = s.ctrl ∧ t.status.cmderr = s.status.cmderr ∧ t.inbox = s.inbox ∧
      match (mrTest s.work.sm rounds as).1 with
      | .verdict b =>
        t.phase = .idle ∧ t.status.done = true ∧ t.status.pp = b ∧ t.status.err = s.status.err ∧
          t.status.errcode = s.status.errcode
      | .failed =>
        t.phase = .idle ∧ t.status.done = true ∧ t.status.err = true ∧ t.status.errcode = 0x12#8 ∧
          t.status.pp = s.status.pp
      | .waiting => t.phase = .waitRng ∧ t.rng = .requested 2 (s.work.sm - 2) ∧ t.status = s.status

/-- U9 and 44_mrtest R207: for odd `n >= 5` and answers that keep the source's contract, the verdict is 1 exactly when every
witness drawn passes its round. -/
def Obligations.VerdictIsWhetherEveryWitnessPasses : Prop :=
  ∀ (n rounds : Nat) (as : List Answer), 5 ≤ n → n % 2 = 1 → (∀ a ∈ as, ContractAnswer n a) → rounds ≤ as.length →
    ((mrTest n rounds as).1 = .verdict true ∨ (mrTest n rounds as).1 = .verdict false) ∧
    ((mrTest n rounds as).1 = .verdict true ↔
      ∀ a ∈ as.take rounds, PassesRound n (decompose n).1 (decompose n).2 a.v)

/-- 44_mrtest R207: a prime is never found composite, whatever the random source answers; with enough answers that keep its
contract the verdict is 1. -/
def Obligations.PrimesAreNeverRejected : Prop :=
  ∀ (n rounds : Nat) (as : List Answer), Nat.Prime n →
    (mrTest n rounds as).1 ≠ .verdict false ∧
    ((∀ a ∈ as, ContractAnswer n a) → rounds ≤ as.length → (mrTest n rounds as).1 = .verdict true)

/-- 42_modmul_modpow R175 (b): `MODPOW` with the private exponent undoes `ENCRYPT`. -/
def Obligations.DecryptionUndoesEncryption : Prop :=
  ∀ (p q e d : Nat) (rd ra rb rm rd' ra' rb' rm' : Reg) (s : State),
    Nat.Prime p → Nat.Prime q → p ≠ q → e * d % Nat.lcm (p - 1) (q - 1) = 1 →
    s.work.sb = e → s.work.sm = p * q → s.work.sa < p * q →
    ∃ t, exec (.encrypt rd ra rb rm) s = .next t ∧ t.status.err = s.status.err ∧
      ∀ s' : State, s'.work.sa = t.reg rd → s'.work.sb = d → s'.work.sm = p * q →
        ∃ t', exec (.modpow rd' ra' rb' rm') s' = .next t' ∧ t'.reg rd' = s.work.sa

/-! ### The arithmetic core (40_arithmetic_core, 43_modinv R192) -/

/-- R136: the reference multiplier's result equals `ModMul`. -/
def Obligations.ReferenceMultiplierComputesModMul : Prop :=
  ∀ w a b m : Nat, 1 ≤ m → b < 2 ^ w → modMulRef w a b m = modMul a b m

/-- R138: the reference divider's result is the floor quotient and the remainder. -/
def Obligations.ReferenceDividerDivides : Prop :=
  ∀ n d : Nat, 1 ≤ d → divRemRef n d = (n / d, n % d)

/-- 43_modinv R190, R192: after any number of iterations the chains keep their congruences, and the coefficients stay within
`m`, so signed registers of `W + 2` bits hold them and the product `Q * T1`. -/
def Obligations.CoefficientChainStaysInBounds : Prop :=
  ∀ a m k : Nat, 1 ≤ m →
    let c := (chainsStep^[k]) (chainsStart a m)
    ((m : ℤ) ∣ a * c.t0 - c.rem0) ∧ ((m : ℤ) ∣ a * c.t1 - c.rem1) ∧
    c.t0.natAbs ≤ c.t1.natAbs ∧ c.t1.natAbs * Nat.gcd a m ≤ m ∧
    (c.rem1 ≠ 0 → ((c.rem0 / c.rem1 : ℕ) * c.t1).natAbs ≤ 2 * m) ∧
    (c.rem1 = 0 → c.rem0 = Nat.gcd a m ∧ c.t1.natAbs = m / Nat.gcd a m)

/-! ### Rules about the whole machine -/

/-- 60_exceptions R253: every command's error is precise: the state at completion with error is the state before, but for
`STATUS` and the working registers. -/
def Obligations.ErrorsArePrecise : Prop :=
  ∀ (i : Instr) (s t : State), s.status.err = false → exec i s = .next t → t.status.err = true →
    ∃ e, CompletesError s t e

/-- 10_state R37: `PP` changes only by a successful `MRTEST` and by reset. -/
def Obligations.OnlyMrtestAndResetChangePp : Prop :=
  ∀ s t : State, step s = .next t → t.status.pp ≠ s.status.pp →
    s.resets ∨ (s.runsTest ∧ s.engineMoves ∧ t.phase = .idle ∧ t.status.done = true ∧ t.status.err = s.status.err)

/-- 10_state R31: a general register changes only by reset, by a host limb write while idle, or as the destination of a
command that completes successfully. -/
def Obligations.RegisterWritersAreTheListedOnes : Prop :=
  ∀ (s t : State) (r : Reg), step s = .next t → t.reg r ≠ s.reg r →
    s.resets ∨
    (s.phase = .idle ∧ ∃ addr v k rest, s.inbox = .write addr 4 v :: rest ∧
      busTarget s.limbs addr 4 = some (.limb r k)) ∨
    (s.phase = .run ∧ s.engineMoves ∧ ∃ i, decode s.work.ir = .ok i ∧ destination i = some r ∧ t.phase = .idle ∧
      t.status.done = true ∧ t.status.err = s.status.err ∧ ∀ r', r' ≠ r → t.reg r' = s.reg r')

/-- 10_state R47, 00_scope R13: what a command does depends on its latch and its answers alone, on no general register. -/
def Obligations.CommandsSeeOnlyTheLatch : Prop :=
  ∀ (i : Instr) (s u t v : State), s.work = u.work → s.limbs = u.limbs → s.rng = u.rng → s.status = u.status →
    exec i s = .next t → exec i u = .next v →
    t.phase = v.phase ∧ t.rng = v.rng ∧ t.status = v.status ∧
    (∀ r, destination i = some r → t.reg r = v.reg r ∨ (t.reg r = s.reg r ∧ v.reg r = u.reg r))

/-- 60_exceptions R245, R246: the frame as the host reads it: a completing command changes no byte of the register window
but those of `STATUS` and, on success, of its destination register. -/
def Obligations.CompletionChangesOnlyStatusAndDestination : Prop :=
  ∀ (i : Instr) (s t : State) (addr : Nat), exec i s = .next t → t.phase = .idle → addr - addr % 4 ≠ 0x00C →
    (∀ r k, destination i = some r → t.status.err = s.status.err →
      busTarget s.limbs (addr - addr % 4) 4 ≠ some (.limb r k)) →
    t.windowByte addr = s.windowByte addr

/-- 60_exceptions R255: `CMDERR` is set only by a write while busy and cleared only by the host or reset. -/
def Obligations.CommandErrorFlagIsSticky : Prop :=
  ∀ s t : State, step s = .next t →
    (s.status.cmderr = true → t.status.cmderr = false →
      s.resets ∨ ∃ v rest, v.getLsbD 4 = true ∧ s.inbox = .write 0x00C 4 v :: rest) ∧
    (s.status.cmderr = false → t.status.cmderr = true →
      s.phase ≠ .idle ∧ ∃ addr v rest, s.inbox = .write addr 4 v :: rest)

/-- 60_exceptions R250, R251: the interrupt output after each kind of event. -/
def Obligations.InterruptFollowsCompletionAndClearing : Prop :=
  (∀ (i : Instr) (s t : State), exec i s = .next t → t.phase = .idle →
    t.irq = (s.ctrl.ieDone || (t.status.err && s.ctrl.ieErr))) ∧
  (∀ (s : State) (c : Word), (s.accept c).irq = false) ∧
  (∀ (s t : State) (v : Word) (rest : List Input), v.getLsbD 1 = true → v.getLsbD 2 = true →
    s.inbox = .write 0x00C 4 v :: rest → step s = .next t → t.irq = false)

/-! ### The host beside the engine (46_host_procedures) -/

/-- R226, R227: decoding what was encoded gives it back, and `ValueTooLarge` exactly when `v >= 256^n`. -/
def Obligations.CodecRoundTrip : Prop :=
  (∀ b : List Byte, Driver.decodeBytes (Driver.encodeBytes b) b.length = some b) ∧
  (∀ v n : Nat, Driver.decodeBytes v n = none ↔ 256 ^ n ≤ v)

/-- R221, R222: what the prime generator returns is a candidate drawn from the host's source that `MRTEST` with `MR_ROUNDS`
rounds judged prime; it is odd, has exactly the requested bit length, and fits a general register. That a bit length outside
`2 .. W` fails is the model's choice (log entry 13). -/
def Obligations.GeneratedPrimesHaveTheShape : Prop :=
  ∀ (w k attempts : Nat) (draws : List Nat) (as : List Answer),
    (¬ (2 ≤ k ∧ k ≤ w) → Driver.generatePrime w k attempts draws as = .error .bitLengthOutOfRange) ∧
    (∀ (c : Nat) (rest : List Nat) (bs : List Answer),
      Driver.generatePrime w k attempts draws as = .ok (c, rest, bs) →
      2 ≤ k ∧ k ≤ w ∧ 2 ^ (k - 1) + 1 ≤ c ∧ c ≤ 2 ^ k - 1 ∧ c % 2 = 1 ∧ c < 2 ^ w ∧
      (∃ draw ∈ draws, c = Driver.candidate k draw) ∧
      ∃ cs, cs <:+ as ∧ mrTest c Config.mrRounds cs = (.verdict true, bs))

/-- R224, R225: the key material's equations and its coprimality invariant; every field but the fixed exponent fits a general
register, since a bit length with `W < 2*bit_length` gives no key (the model's choice, log entry 13). -/
def Obligations.KeyMaterialIsConsistent : Prop :=
  ∀ (w k attempts retries : Nat) (draws : List Nat) (as : List Answer) (key : Driver.KeyMaterial),
    Driver.generateKeypair w k attempts retries draws as = .ok key →
    2 * k ≤ w ∧ 2 ^ (k - 1) < key.primeA ∧ key.primeA < 2 ^ k ∧ 2 ^ (k - 1) < key.primeB ∧ key.primeB < 2 ^ k ∧
    key.primeA ≠ key.primeB ∧ key.modulus = key.primeA * key.primeB ∧ key.modulus < 2 ^ w ∧
    key.totient = Nat.lcm (key.primeA - 1) (key.primeB - 1) ∧ key.totient < 2 ^ w ∧ key.publicExponent = 65537 ∧
    Nat.gcd key.publicExponent key.totient = 1 ∧ key.privateExponent < key.totient ∧
    key.publicExponent * key.privateExponent % key.totient = 1 % key.totient
end

