-- ==== Sys2Proof/Laws/Arithmetic.lean ====
section
/-! SUPPORT. What the functions of the arithmetic core and of the command files compute, in Mathlib's terms: one lemma per
function, cited instead of unfolding its loop. -/

namespace Sys2Proof.Machine

theorem bitlen_bound (v : Nat) : v < 2 ^ bitlen v := by
  unfold bitlen
  split
  · simp_all
  · exact Nat.lt_log2_self

theorem fitsWidth_iff (w v : Nat) : fitsWidth w v = true ↔ v < 2 ^ w := by
  simp [fitsWidth, Nat.shiftRight_eq_div_pow, Nat.div_eq_zero_iff]

/-! ### Euclid (41_gcd_lcm R160, R162) -/

theorem gcdLoop_eq (fuel u v : Nat) (h : v < fuel) : gcdLoop fuel u v = Nat.gcd u v := by
  induction fuel generalizing u v with
  | zero => omega
  | succ n ih =>
    unfold gcdLoop
    split
    · simp_all
    · have hv : 0 < v := by omega
      have hm := Nat.mod_lt u hv
      rw [ih v (u % v) (by omega), Nat.gcd_comm u v, Nat.gcd_rec v u, Nat.gcd_comm]

theorem gcd_eq (a b : Nat) : gcd a b = Nat.gcd a b := gcdLoop_eq _ _ _ (by omega)

theorem lcm_eq (a b : Nat) : lcm a b = Nat.lcm a b := by
  unfold lcm
  split
  · rename_i h
    rcases h with rfl | rfl <;> simp
  · rw [gcd_eq, Nat.lcm, Nat.div_mul_right_comm (Nat.gcd_dvd_left a b)]

/-! ### Square and multiply (42_modmul_modpow R171) -/

theorem modPowLoop_eq (m fuel res bas exp : Nat) (h : exp < 2 ^ fuel) :
    modPowLoop m fuel res bas exp % m = res * bas ^ exp % m := by
  induction fuel generalizing res bas exp with
  | zero =>
    have : exp = 0 := by simpa using h
    simp [modPowLoop, this]
  | succ n ih =>
    unfold modPowLoop
    split
    · rename_i h0
      simp [h0]
    · have hlt : exp / 2 < 2 ^ n := by
        rw [pow_succ] at h
        omega
      rw [ih _ _ _ hlt]
      have hsq : (modMul bas bas m) ^ (exp / 2) % m = bas ^ (2 * (exp / 2)) % m := by
        rw [modMul, ← Nat.pow_mod, ← pow_two, ← pow_mul]
      have hexp := Nat.div_add_mod exp 2
      split
      · rename_i h1
        calc modMul res bas m * modMul bas bas m ^ (exp / 2) % m
            = res * bas * bas ^ (2 * (exp / 2)) % m := by
              rw [Nat.mul_mod, hsq, modMul, Nat.mod_mod, ← Nat.mul_mod]
          _ = res * bas ^ exp % m := by
              rw [mul_assoc, ← pow_succ', show 2 * (exp / 2) + 1 = exp by omega]
      · rename_i h1
        rw [Nat.mul_mod, hsq, ← Nat.mul_mod, show 2 * (exp / 2) = exp by omega]

theorem modPowLoop_lt (m fuel res bas exp : Nat) (hm : 0 < m) (hr : res < m) :
    modPowLoop m fuel res bas exp < m := by
  induction fuel generalizing res bas exp with
  | zero => exact hr
  | succ n ih =>
    unfold modPowLoop
    split
    · exact hr
    · apply ih
      split
      · exact Nat.mod_lt _ hm
      · exact hr

theorem modPow_eq (b e m : Nat) (hm : 0 < m) : modPow b e m = b ^ e % m := by
  unfold modPow
  split
  · rename_i h
    simp [h, Nat.mod_one]
  · rename_i h
    have hlt := modPowLoop_lt m (bitlen e) 1 (b % m) e hm (by omega)
    rw [← Nat.mod_eq_of_lt hlt, modPowLoop_eq _ _ _ _ _ (bitlen_bound e), one_mul, ← Nat.pow_mod]

theorem modMul_lt (a b m : Nat) (hm : 0 < m) : modMul a b m < m := Nat.mod_lt _ hm

theorem modPow_lt (b e m : Nat) (hm : 0 < m) : modPow b e m < m := by
  rw [modPow_eq _ _ _ hm]
  exact Nat.mod_lt _ hm

/-! ### The decomposition `n - 1 = D * 2^S` (44_mrtest R202) -/

theorem halve_split (fuel d s : Nat) : (halve fuel d s).1 * 2 ^ (halve fuel d s).2 = d * 2 ^ s := by
  induction fuel generalizing d s with
  | zero => rfl
  | succ n ih =>
    unfold halve
    split
    · rename_i h
      rw [ih, pow_succ, mul_comm (2 ^ s) 2, ← mul_assoc, Nat.div_mul_cancel (Nat.dvd_of_mod_eq_zero h)]
    · rfl

theorem halve_odd (fuel d s : Nat) (hd : 0 < d) (h : d < 2 ^ fuel) : (halve fuel d s).1 % 2 = 1 := by
  induction fuel generalizing d s with
  | zero => simp at h; omega
  | succ n ih =>
    unfold halve
    split
    · exact ih _ _ (by omega) (by rw [pow_succ] at h; omega)
    · show d % 2 = 1
      omega

theorem decompose_split (n : Nat) : (decompose n).1 * 2 ^ (decompose n).2 = n - 1 := by
  simpa [decompose] using halve_split (bitlen (n - 1)) (n - 1) 0

theorem decompose_odd (n : Nat) (hn : 2 ≤ n) : (decompose n).1 % 2 = 1 :=
  halve_odd _ _ _ (by omega) (bitlen_bound _)

/-! ### One round (44_mrtest R203, R204) -/

/-- The squaring loop on `x = y mod n` passes exactly when one of the next `k` squares is `n - 1`. -/
theorem squaringsPass_iff (n k y : Nat) (hn : 3 ≤ n) :
    squaringsPass n k (y % n) = true ↔ ∃ j, j < k ∧ y ^ (2 ^ (j + 1)) % n = n - 1 := by
  induction k generalizing y with
  | zero => simp [squaringsPass]
  | succ k ih =>
    have hsq : modMul (y % n) (y % n) n = y ^ 2 % n := by
      rw [modMul, ← Nat.mul_mod, ← pow_two]
    unfold squaringsPass
    simp only [hsq]
    split
    · rename_i h
      simp only [true_iff]
      exact ⟨0, by omega, by simpa using h⟩
    · rename_i h
      split
      · rename_i h1
        simp only [Bool.false_eq_true, false_iff]
        rintro ⟨j, -, hj⟩
        have : y ^ (2 ^ (j + 1)) % n = 1 := by
          rw [pow_succ', pow_mul, Nat.pow_mod, h1, one_pow, Nat.mod_eq_of_lt (by omega)]
        omega
      · rw [ih (y ^ 2)]
        constructor
        · rintro ⟨j, hj, e⟩
          exact ⟨j + 1, by omega, by rw [← e, ← pow_mul, ← pow_succ']⟩
        · rintro ⟨j, hj, e⟩
          cases j with
          | zero => exact absurd (by simpa using e) h
          | succ j => exact ⟨j, by omega, by rw [← e, ← pow_mul, ← pow_succ']⟩

/-- The engine's round is the condition stated in plain arithmetic. -/
theorem roundPasses_iff (n d e a : Nat) (hn : 3 ≤ n) (he : 1 ≤ e) :
    roundPasses n d e a = true ↔ PassesRound n d e a := by
  unfold roundPasses PassesRound
  rw [modPow_eq _ _ _ (by omega)]
  constructor
  · intro h
    by_cases h1 : a ^ d % n = 1
    · exact .inl h1
    · by_cases h2 : a ^ d % n = n - 1
      · exact .inr ⟨0, by omega, by simpa using h2⟩
      · simp only [h1, h2, or_self, if_false] at h
        obtain ⟨j, hj, e'⟩ := (squaringsPass_iff n (e - 1) (a ^ d) hn).1 h
        exact .inr ⟨j + 1, by omega, by rw [← e', ← pow_mul]⟩
  · intro h
    by_cases h1 : a ^ d % n = 1
    · simp [h1]
    · by_cases h2 : a ^ d % n = n - 1
      · simp [h2]
      · simp only [h1, h2, or_self, if_false]
        rcases h with h | ⟨j, hj, e'⟩
        · exact absurd h h1
        · cases j with
          | zero => exact absurd (by simpa using e') h2
          | succ j => exact (squaringsPass_iff n (e - 1) (a ^ d) hn).2 ⟨j, by omega, by rw [← e', ← pow_mul]⟩

end Sys2Proof.Machine
end

