-- ==== Sys2Proof/Laws/Driver.lean ====
section
/-! SUPPORT. What the host procedures of spec/46_host_procedures.md can answer, one lemma per function. -/

namespace Sys2Proof.Driver

open Sys2Proof.Machine

/-- R222: a candidate is odd and has exactly `k` bits. -/
theorem candidate_shape {k : Nat} (hk : 2 ≤ k) (draw : Nat) :
    2 ^ (k - 1) + 1 ≤ candidate k draw ∧ candidate k draw ≤ 2 ^ k - 1 ∧ candidate k draw % 2 = 1 := by
  obtain ⟨j, rfl⟩ := Nat.exists_eq_add_of_le' hk
  have h := Nat.mod_lt draw (Nat.two_pow_pos j)
  have e₁ : 2 ^ (j + 1) = 2 * 2 ^ j := by ring
  have e₂ : 2 ^ (j + 2) = 4 * 2 ^ j := by ring
  simp only [candidate, Nat.add_sub_cancel, show j + 2 - 1 = j + 1 by omega, e₁, e₂]
  omega

theorem mrRounds_rest_suffix (n d e r : Nat) (as : List Answer) : (mrRounds n d e r as).2 <:+ as := by
  induction r generalizing as with
  | zero => simp [mrRounds]
  | succ r ih =>
    cases as with
    | nil => simp [mrRounds]
    | cons a as =>
      simp only [mrRounds]
      split_ifs
      · exact List.suffix_cons a as
      · exact (ih as).trans (List.suffix_cons a as)
      · exact List.suffix_cons a as

/-- `MRTEST` uses its answers in order and leaves the rest. -/
theorem mrTest_rest_suffix (n rounds : Nat) (as : List Answer) : (mrTest n rounds as).2 <:+ as := by
  unfold mrTest
  split
  · exact List.suffix_refl as
  · exact mrRounds_rest_suffix _ _ _ _ _

/-- What the search returns: a candidate from the draws that passed its `MRTEST` (R221). -/
theorem searchPrime_ok {k attempts c : Nat} {draws rest : List Nat} {as bs : List Answer}
    (h : searchPrime k attempts draws as = .ok (c, rest, bs)) :
    (∃ draw ∈ draws, c = candidate k draw) ∧
      ∃ cs, cs <:+ as ∧ mrTest c Config.mrRounds cs = (.verdict true, bs) := by
  induction attempts generalizing draws as with
  | zero => simp [searchPrime] at h
  | succ n ih =>
    cases draws with
    | nil => simp [searchPrime] at h
    | cons draw draws =>
      simp only [searchPrime] at h
      split at h
      · rename_i m
        simp only [Except.ok.injEq, Prod.mk.injEq] at h
        obtain ⟨rfl, -, rfl⟩ := h
        exact ⟨⟨draw, by simp, rfl⟩, as, List.suffix_refl as, m⟩
      · rename_i r m
        obtain ⟨⟨x, hx, e⟩, cs, hcs, hm⟩ := ih h
        have hr : r <:+ as := by simpa [m] using mrTest_rest_suffix (candidate k draw) Config.mrRounds as
        exact ⟨⟨x, List.mem_cons_of_mem _ hx, e⟩, cs, hcs.trans hr, hm⟩
      · cases h
      · cases h

/-- `generate_prime` answers a number only for an admitted bit length, and then the search's (R221). -/
theorem generatePrime_ok {w k attempts : Nat} {draws : List Nat} {as : List Answer} {x : Nat × List Nat × List Answer}
    (h : generatePrime w k attempts draws as = .ok x) :
    2 ≤ k ∧ k ≤ w ∧ searchPrime k attempts draws as = .ok x := by
  unfold generatePrime at h
  split at h
  · exact ⟨(‹_ ∧ _›).1, (‹_ ∧ _›).2, h⟩
  · cases h

/-- What a derived key is: R225's guards and the values it computes. -/
theorem deriveKeys_ok {w k a b : Nat} {key : KeyMaterial} (h : deriveKeys w k a b = .ok (some key)) :
    a ≠ b ∧ 2 * k ≤ w ∧ key.primeA = a ∧ key.primeB = b ∧ key.modulus = a * b ∧
      key.totient = Nat.lcm (a - 1) (b - 1) ∧ key.totient < 2 ^ w ∧ key.publicExponent = Config.publicExponent ∧
      Nat.gcd Config.publicExponent key.totient = 1 ∧
      modInv Config.publicExponent key.totient = some key.privateExponent := by
  unfold deriveKeys at h
  simp only [lcm_eq, gcd_eq] at h
  split_ifs at h with h₁ h₂ hf hg
  any_goals cases h
  split at h
  · cases h
  · rename_i d hd
    simp only [Except.ok.injEq, Option.some.injEq] at h
    subst h
    exact ⟨h₁, by omega, rfl, rfl, rfl, rfl, by simpa [fitsWidth_iff] using hf, rfl, by simpa using hg, hd⟩

end Sys2Proof.Driver
end

