-- ==== Sys2Proof/Laws/Encoding.lean ====
section
/-! SUPPORT. The fields of an encoded word, read back (spec/30_encoding.md R101, R108). -/

namespace Sys2Proof

theorem regField_val (lo : Nat) (c : Word) : (regField lo c).val = c.toNat / 2 ^ lo % 8 := rfl

/-- Every field of `encodeFields` at once. -/
theorem encodeFields_toNat (op imm8 : Nat) (rd ra rb rm : Reg) (ho : op < 256) (hi : imm8 < 256) :
    (encodeFields op imm8 rd ra rb rm).toNat =
      op * 2 ^ 24 + imm8 * 2 ^ 16 + rd.val * 2 ^ 9 + ra.val * 2 ^ 6 + rb.val * 2 ^ 3 + rm.val := by
  have h1 := rd.isLt; have h2 := ra.isLt; have h3 := rb.isLt; have h4 := rm.isLt
  simp only [encodeFields, BitVec.toNat_ofNat]
  omega

section
variable (op imm8 : Nat) (rd ra rb rm : Reg) (ho : op < 256) (hi : imm8 < 256)
include ho hi

theorem encodeFields_op : bits 31 24 (encodeFields op imm8 rd ra rb rm) = op := by
  have h1 := rd.isLt; have h2 := ra.isLt; have h3 := rb.isLt; have h4 := rm.isLt
  rw [bits, encodeFields_toNat _ _ _ _ _ _ ho hi]; omega

theorem encodeFields_imm8 : bits 23 16 (encodeFields op imm8 rd ra rb rm) = imm8 := by
  have h1 := rd.isLt; have h2 := ra.isLt; have h3 := rb.isLt; have h4 := rm.isLt
  rw [bits, encodeFields_toNat _ _ _ _ _ _ ho hi]; omega

theorem encodeFields_rsv : bits 15 12 (encodeFields op imm8 rd ra rb rm) = 0 := by
  have h1 := rd.isLt; have h2 := ra.isLt; have h3 := rb.isLt; have h4 := rm.isLt
  rw [bits, encodeFields_toNat _ _ _ _ _ _ ho hi]; omega

theorem encodeFields_rd : regField 9 (encodeFields op imm8 rd ra rb rm) = rd := by
  have h1 := rd.isLt; have h2 := ra.isLt; have h3 := rb.isLt; have h4 := rm.isLt
  apply Fin.ext; rw [regField_val, encodeFields_toNat _ _ _ _ _ _ ho hi]; omega

theorem encodeFields_ra : regField 6 (encodeFields op imm8 rd ra rb rm) = ra := by
  have h1 := rd.isLt; have h2 := ra.isLt; have h3 := rb.isLt; have h4 := rm.isLt
  apply Fin.ext; rw [regField_val, encodeFields_toNat _ _ _ _ _ _ ho hi]; omega

theorem encodeFields_rb : regField 3 (encodeFields op imm8 rd ra rb rm) = rb := by
  have h1 := rd.isLt; have h2 := ra.isLt; have h3 := rb.isLt; have h4 := rm.isLt
  apply Fin.ext; rw [regField_val, encodeFields_toNat _ _ _ _ _ _ ho hi]; omega

theorem encodeFields_rm : regField 0 (encodeFields op imm8 rd ra rb rm) = rm := by
  have h1 := rd.isLt; have h2 := ra.isLt; have h3 := rb.isLt; have h4 := rm.isLt
  apply Fin.ext; rw [regField_val, encodeFields_toNat _ _ _ _ _ _ ho hi]; omega

end

/-- What a decoded word's fields are: the one inversion of `decode`. -/
def FieldsOf (c : Word) : Instr → Prop
  | .gcd rd ra rb => bits 31 24 c = 1 ∧ bits 23 16 c = 0 ∧
      rd = regField 9 c ∧ ra = regField 6 c ∧ rb = regField 3 c ∧ regField 0 c = 0
  | .lcm rd ra rb => bits 31 24 c = 2 ∧ bits 23 16 c = 0 ∧
      rd = regField 9 c ∧ ra = regField 6 c ∧ rb = regField 3 c ∧ regField 0 c = 0
  | .modmul rd ra rb rm => bits 31 24 c = 3 ∧ bits 23 16 c = 0 ∧
      rd = regField 9 c ∧ ra = regField 6 c ∧ rb = regField 3 c ∧ rm = regField 0 c
  | .modpow rd ra rb rm => bits 31 24 c = 4 ∧ bits 23 16 c = 0 ∧
      rd = regField 9 c ∧ ra = regField 6 c ∧ rb = regField 3 c ∧ rm = regField 0 c
  | .encrypt rd ra rb rm => bits 31 24 c = 5 ∧ bits 23 16 c = 0 ∧
      rd = regField 9 c ∧ ra = regField 6 c ∧ rb = regField 3 c ∧ rm = regField 0 c
  | .modinv rd ra rm => bits 31 24 c = 6 ∧ bits 23 16 c = 0 ∧
      rd = regField 9 c ∧ ra = regField 6 c ∧ regField 3 c = 0 ∧ rm = regField 0 c
  | .mrtest rm rounds => bits 31 24 c = 7 ∧ bits 23 16 c = rounds ∧
      regField 9 c = 0 ∧ regField 6 c = 0 ∧ regField 3 c = 0 ∧ rm = regField 0 c

theorem decode_fields {c : Word} {i : Instr} (h : decode c = .ok i) : bits 15 12 c = 0 ∧ FieldsOf c i := by
  simp only [decode] at h
  split_ifs at h
  all_goals simp only [Decoded.ok.injEq] at h
  all_goals subst h
  all_goals simp_all [FieldsOf]

theorem bits_lt (hi lo : Nat) (c : Word) : bits hi lo c < 2 ^ (hi + 1 - lo) := Nat.mod_lt _ (Nat.two_pow_pos _)

/-- A decoded rounds count fits the immediate (30_encoding R102). -/
theorem decode_mrtest_rounds {c : Word} {rm : Reg} {rounds : Nat} (h : decode c = .ok (.mrtest rm rounds)) :
    rounds < 256 := by
  have hf := (decode_fields h).2
  simp only [FieldsOf] at hf
  rw [← hf.2.1]
  exact bits_lt 23 16 c

end Sys2Proof
end

