-- ==== Sys2Proof/Laws/ModInv.lean ====
section
/-! SUPPORT. The extended-Euclidean chains of `MODINV` (spec/43_modinv.md R190, R192): what one iteration keeps, and what the
function returns. -/

namespace Sys2Proof.Machine

/-- What holds of the two chains at the top of the loop and at exit (R190, R192). -/
structure ChainsOk (a m : ℕ) (c : EuclidChains) : Prop where
  gcdEq : Nat.gcd c.rem0 c.rem1 = Nat.gcd a m
  decreases : c.rem1 ≠ 0 → c.rem1 < c.rem0
  congr0 : (m : ℤ) ∣ a * c.t0 - c.rem0
  congr1 : (m : ℤ) ∣ a * c.t1 - c.rem1
  sum : c.rem0 * c.t1.natAbs + c.rem1 * c.t0.natAbs = m
  grows : c.t0.natAbs ≤ c.t1.natAbs
  signs : (0 ≤ c.t0 ∧ c.t1 ≤ 0) ∨ (c.t0 ≤ 0 ∧ 0 ≤ c.t1)
  pos : 0 < c.rem0
  strict : c.rem1 = 0 → 2 ≤ m → c.rem0 = 1 → c.t0.natAbs < m

/-- The chains start so (R190). -/
theorem chainsStart_ok (a m : ℕ) (hm : 1 ≤ m) : ChainsOk a m (chainsStart a m) where
  gcdEq := by rw [Nat.gcd_comm a m, Nat.gcd_rec m a, Nat.gcd_comm]; rfl
  decreases := fun _ => Nat.mod_lt _ hm
  congr0 := by simp [chainsStart]
  congr1 := by
    simp only [chainsStart]; push_cast; rw [mul_one]
    exact Int.dvd_self_sub_of_emod_eq rfl
  sum := by simp [chainsStart]
  grows := by simp [chainsStart]
  signs := by simp [chainsStart]
  pos := hm
  strict := by simp [chainsStart]; omega

/-- One iteration keeps it (R192). -/
theorem chainsStep_ok {a m : ℕ} {c : EuclidChains} (h : ChainsOk a m c) : ChainsOk a m (chainsStep c) := by
  unfold chainsStep
  split
  · exact h
  · rename_i hr
    have hlt := h.decreases hr
    have hmod : c.rem0 - c.rem0 / c.rem1 * c.rem1 = c.rem0 % c.rem1 := by
      have := Nat.div_add_mod c.rem0 c.rem1
      rw [mul_comm] at this; omega
    simp only [hmod]
    have hq : 1 ≤ c.rem0 / c.rem1 := (Nat.one_le_div_iff (by omega)).2 hlt.le
    have hnat : (c.t0 - (c.rem0 / c.rem1 : ℕ) * c.t1).natAbs = c.t0.natAbs + c.rem0 / c.rem1 * c.t1.natAbs := by
      rcases h.signs with ⟨h1, h2⟩ | ⟨h1, h2⟩
      · have : (c.rem0 / c.rem1 : ℕ) * c.t1 ≤ 0 := mul_nonpos_of_nonneg_of_nonpos (by positivity) h2
        zify
        rw [abs_of_nonneg (by push_cast at *; linarith), abs_of_nonneg h1, abs_of_nonpos h2]; ring
      · have : 0 ≤ (c.rem0 / c.rem1 : ℕ) * c.t1 := by positivity
        zify
        rw [abs_of_nonpos (by push_cast at *; linarith), abs_of_nonpos h1, abs_of_nonneg h2]; ring
    have hdm := Nat.div_add_mod c.rem0 c.rem1
    have hsum : c.rem1 * (c.t0 - (c.rem0 / c.rem1 : ℕ) * c.t1).natAbs + c.rem0 % c.rem1 * c.t1.natAbs = m := by
      rw [hnat]
      have := h.sum
      conv at this => lhs; rw [← hdm]
      rw [← this]; ring
    have hg : Nat.gcd c.rem1 (c.rem0 % c.rem1) = Nat.gcd a m := by
      rw [← h.gcdEq, Nat.gcd_comm, ← Nat.gcd_rec, Nat.gcd_comm]
    refine ⟨hg, fun _ => Nat.mod_lt _ (by omega), h.congr1, ?_, hsum, ?_, ?_, by simp; omega, ?_⟩
    · have hcast : ((c.rem0 % c.rem1 : ℕ) : ℤ) = c.rem0 - (c.rem0 / c.rem1 : ℕ) * c.rem1 := by
        have : (c.rem0 : ℤ) = (c.rem1 * (c.rem0 / c.rem1) + c.rem0 % c.rem1 : ℕ) := by exact_mod_cast hdm.symm
        have cast : ((c.rem1 * (c.rem0 / c.rem1) + c.rem0 % c.rem1 : ℕ) : ℤ) =
          ((c.rem0 / c.rem1 : ℕ) : ℤ) * c.rem1 + ((c.rem0 % c.rem1 : ℕ) : ℤ) := by push_cast; ring
        linarith
      simp only [hcast]
      have : (a : ℤ) * (c.t0 - (c.rem0 / c.rem1 : ℕ) * c.t1) - (c.rem0 - (c.rem0 / c.rem1 : ℕ) * c.rem1) =
          (a * c.t0 - c.rem0) - (c.rem0 / c.rem1 : ℕ) * (a * c.t1 - c.rem1) := by ring
      rw [this]
      exact dvd_sub h.congr0 (Dvd.dvd.mul_left h.congr1 _)
    · simp only [hnat]
      have := Nat.mul_le_mul_right c.t1.natAbs hq
      omega
    · rcases h.signs with ⟨h1, h2⟩ | ⟨h1, h2⟩
      · have := mul_nonpos_of_nonneg_of_nonpos (by positivity : (0 : ℤ) ≤ (c.rem0 / c.rem1 : ℕ)) h2
        exact .inr ⟨h2, by linarith⟩
      · have := mul_nonneg (by positivity : (0 : ℤ) ≤ (c.rem0 / c.rem1 : ℕ)) h2
        exact .inl ⟨h2, by linarith⟩
    · intro h0 hm hr1
      simp only at h0 hr1 ⊢
      have hs := h.sum
      rw [hr1] at hs hlt
      have : 2 * c.t1.natAbs ≤ c.rem0 * c.t1.natAbs := Nat.mul_le_mul_right _ hlt
      omega

/-- With enough fuel the loop ends by its own condition (R190). -/
theorem chainsLoop_ok (a m : ℕ) :
    ∀ f c, ChainsOk a m c → c.rem1 < f → ChainsOk a m (chainsLoop f c) ∧ (chainsLoop f c).rem1 = 0 := by
  intro f
  induction f with
  | zero => intro c _ h; omega
  | succ f ih =>
    intro c hc hf
    unfold chainsLoop
    split
    · exact ⟨hc, ‹_›⟩
    · apply ih _ (chainsStep_ok hc)
      rename_i hr
      simp only [chainsStep, hr, if_false]
      have := Nat.div_add_mod c.rem0 c.rem1
      have hl := Nat.mod_lt c.rem0 (Nat.pos_of_ne_zero hr)
      rw [mul_comm] at this
      omega

/-- Coprime operands have their inverse (R193). -/
theorem modInv_some {a m : ℕ} (hm : 2 ≤ m) (hg : Nat.gcd a m = 1) :
    ∃ v, modInv a m = some v ∧ v < m ∧ a * v % m = 1 := by
  obtain ⟨hc, hz⟩ := chainsLoop_ok a m (a % m + 1) _ (chainsStart_ok a m (by omega)) (by simp [chainsStart])
  change ChainsOk a m (chainsEnd a m) at hc
  change (chainsEnd a m).rem1 = 0 at hz
  have hr : (chainsEnd a m).rem0 = 1 := by have := hc.gcdEq; rw [hz] at this; simpa [hg] using this
  have hlt := hc.strict hz hm hr
  unfold modInv
  simp only [hr]
  refine ⟨_, rfl, ?_, ?_⟩
  · split <;> omega
  · have hd := hc.congr0
    rw [hr] at hd
    set t := (chainsEnd a m).t0
    have key : ∀ x : ℤ, 0 ≤ x → (m:ℤ) ∣ a * x - 1 → a * x.toNat % m = 1 := by
      intro x hx hdx
      have h2 : ((a * x.toNat : ℕ) : ℤ) % m = 1 % m := by
        push_cast; rw [Int.toNat_of_nonneg hx]
        exact Int.emod_eq_emod_iff_emod_sub_eq_zero.2 (Int.emod_eq_zero_of_dvd hdx)
      have h3 : (1:ℤ) % m = 1 := Int.emod_eq_of_lt (by omega) (by omega)
      rw [h3] at h2
      exact_mod_cast h2
    split
    · apply key
      · omega
      · have : (a:ℤ) * (t + m) - 1 = (a * t - ((1:ℕ):ℤ)) + m * a := by push_cast; ring
        rw [this]; exact dvd_add hd (Dvd.intro _ rfl)
    · apply key _ (by omega); simpa using hd

/-- Operands that are not coprime have none (R191). -/
theorem modInv_none {a m : ℕ} (hm : 2 ≤ m) (hg : Nat.gcd a m ≠ 1) : modInv a m = none := by
  obtain ⟨hc, hz⟩ := chainsLoop_ok a m (a % m + 1) _ (chainsStart_ok a m (by omega)) (by simp [chainsStart])
  change ChainsOk a m (chainsEnd a m) at hc
  change (chainsEnd a m).rem1 = 0 at hz
  have := hc.gcdEq; rw [hz] at this; simp at this
  have := hc.pos
  unfold modInv
  simp only
  rw [if_pos (by omega)]

/-- Modulus 1 gives 0 (R191). -/
theorem modInv_one (a : ℕ) : modInv a 1 = some 0 := by
  simp [modInv, chainsEnd, chainsStart, Nat.mod_one, chainsLoop]

end Sys2Proof.Machine
end

