-- ==== Sys2Proof/Laws/State.lean ====
section
/-! SUPPORT. One lemma per field of `State` per named update, true by `rfl`: later proofs never unfold an update. -/

namespace Sys2Proof.Machine

/-! ### `State.writeReg` -/

@[simp] theorem State.writeReg_regs (s : State) (r : Reg) (v : Nat) : (s.writeReg r v).regs = s.regs.set r.val v := rfl
@[simp] theorem State.writeReg_phase (s : State) (r : Reg) (v : Nat) : (s.writeReg r v).phase = s.phase := rfl
@[simp] theorem State.writeReg_ctrl (s : State) (r : Reg) (v : Nat) : (s.writeReg r v).ctrl = s.ctrl := rfl
@[simp] theorem State.writeReg_status (s : State) (r : Reg) (v : Nat) : (s.writeReg r v).status = s.status := rfl
@[simp] theorem State.writeReg_work (s : State) (r : Reg) (v : Nat) : (s.writeReg r v).work = s.work := rfl
@[simp] theorem State.writeReg_rng (s : State) (r : Reg) (v : Nat) : (s.writeReg r v).rng = s.rng := rfl
@[simp] theorem State.writeReg_limbs (s : State) (r : Reg) (v : Nat) : (s.writeReg r v).limbs = s.limbs := rfl
@[simp] theorem State.writeReg_inbox (s : State) (r : Reg) (v : Nat) : (s.writeReg r v).inbox = s.inbox := rfl
@[simp] theorem State.writeReg_busResp (s : State) (r : Reg) (v : Nat) : (s.writeReg r v).busResp = s.busResp := rfl
@[simp] theorem State.writeReg_rngSeq (s : State) (r : Reg) (v : Nat) : (s.writeReg r v).rngSeq = s.rngSeq := rfl
@[simp] theorem State.writeReg_freeCtr (s : State) (r : Reg) (v : Nat) : (s.writeReg r v).freeCtr = s.freeCtr := rfl

/-! ### `State.latchSources` -/

@[simp] theorem State.latchSources_regs (s : State) (c : Word) : (s.latchSources c).regs = s.regs := rfl
@[simp] theorem State.latchSources_phase (s : State) (c : Word) : (s.latchSources c).phase = s.phase := rfl
@[simp] theorem State.latchSources_ctrl (s : State) (c : Word) : (s.latchSources c).ctrl = s.ctrl := rfl
@[simp] theorem State.latchSources_status (s : State) (c : Word) : (s.latchSources c).status = s.status := rfl
@[simp] theorem State.latchSources_work (s : State) (c : Word) :
    (s.latchSources c).work = { s.work with
      ir := c, sa := s.reg (regField 6 c), sb := s.reg (regField 3 c), sm := s.reg (regField 0 c) } := rfl
@[simp] theorem State.latchSources_rng (s : State) (c : Word) : (s.latchSources c).rng = s.rng := rfl
@[simp] theorem State.latchSources_limbs (s : State) (c : Word) : (s.latchSources c).limbs = s.limbs := rfl
@[simp] theorem State.latchSources_inbox (s : State) (c : Word) : (s.latchSources c).inbox = s.inbox := rfl
@[simp] theorem State.latchSources_busResp (s : State) (c : Word) : (s.latchSources c).busResp = s.busResp := rfl
@[simp] theorem State.latchSources_rngSeq (s : State) (c : Word) : (s.latchSources c).rngSeq = s.rngSeq := rfl
@[simp] theorem State.latchSources_freeCtr (s : State) (c : Word) : (s.latchSources c).freeCtr = s.freeCtr := rfl

/-! ### `State.accept` -/

@[simp] theorem State.accept_regs (s : State) (c : Word) : (s.accept c).regs = s.regs := rfl
@[simp] theorem State.accept_phase (s : State) (c : Word) : (s.accept c).phase = .run := rfl
@[simp] theorem State.accept_ctrl (s : State) (c : Word) : (s.accept c).ctrl = s.ctrl := rfl
@[simp] theorem State.accept_status (s : State) (c : Word) : (s.accept c).status = s.status.accepted := rfl
@[simp] theorem State.accept_work (s : State) (c : Word) : (s.accept c).work = (s.latchSources c).work := rfl
@[simp] theorem State.accept_rng (s : State) (c : Word) : (s.accept c).rng = s.rng := rfl
@[simp] theorem State.accept_limbs (s : State) (c : Word) : (s.accept c).limbs = s.limbs := rfl
@[simp] theorem State.accept_inbox (s : State) (c : Word) : (s.accept c).inbox = s.inbox := rfl
@[simp] theorem State.accept_busResp (s : State) (c : Word) : (s.accept c).busResp = s.busResp := rfl
@[simp] theorem State.accept_rngSeq (s : State) (c : Word) : (s.accept c).rngSeq = s.rngSeq := rfl
@[simp] theorem State.accept_freeCtr (s : State) (c : Word) : (s.accept c).freeCtr = s.freeCtr := rfl

/-! ### `State.finish` -/

@[simp] theorem State.finish_regs (s : State) : (s.finish).regs = s.regs := rfl
@[simp] theorem State.finish_phase (s : State) : (s.finish).phase = .idle := rfl
@[simp] theorem State.finish_ctrl (s : State) : (s.finish).ctrl = s.ctrl := rfl
@[simp] theorem State.finish_status (s : State) : (s.finish).status = s.status := rfl
@[simp] theorem State.finish_work (s : State) : (s.finish).work = Work.free s.width s.freeCtr := rfl
@[simp] theorem State.finish_rng (s : State) : (s.finish).rng = .idle := rfl
@[simp] theorem State.finish_limbs (s : State) : (s.finish).limbs = s.limbs := rfl
@[simp] theorem State.finish_inbox (s : State) : (s.finish).inbox = s.inbox := rfl
@[simp] theorem State.finish_busResp (s : State) : (s.finish).busResp = s.busResp := rfl
@[simp] theorem State.finish_rngSeq (s : State) : (s.finish).rngSeq = s.rngSeq := rfl
@[simp] theorem State.finish_freeCtr (s : State) : (s.finish).freeCtr = s.freeCtr + 1 := rfl

/-! ### `State.completeReg` -/

@[simp] theorem State.completeReg_regs (s : State) (r : Reg) (v : Nat) :
    (s.completeReg r v).regs = s.regs.set r.val v := rfl
@[simp] theorem State.completeReg_phase (s : State) (r : Reg) (v : Nat) : (s.completeReg r v).phase = .idle := rfl
@[simp] theorem State.completeReg_ctrl (s : State) (r : Reg) (v : Nat) : (s.completeReg r v).ctrl = s.ctrl := rfl
@[simp] theorem State.completeReg_status (s : State) (r : Reg) (v : Nat) :
    (s.completeReg r v).status = s.status.succeeded := rfl
@[simp] theorem State.completeReg_work (s : State) (r : Reg) (v : Nat) :
    (s.completeReg r v).work = Work.free s.width s.freeCtr := rfl
@[simp] theorem State.completeReg_rng (s : State) (r : Reg) (v : Nat) : (s.completeReg r v).rng = .idle := rfl
@[simp] theorem State.completeReg_limbs (s : State) (r : Reg) (v : Nat) : (s.completeReg r v).limbs = s.limbs := rfl
@[simp] theorem State.completeReg_inbox (s : State) (r : Reg) (v : Nat) : (s.completeReg r v).inbox = s.inbox := rfl
@[simp] theorem State.completeReg_busResp (s : State) (r : Reg) (v : Nat) :
    (s.completeReg r v).busResp = s.busResp := rfl
@[simp] theorem State.completeReg_rngSeq (s : State) (r : Reg) (v : Nat) : (s.completeReg r v).rngSeq = s.rngSeq := rfl
@[simp] theorem State.completeReg_freeCtr (s : State) (r : Reg) (v : Nat) :
    (s.completeReg r v).freeCtr = s.freeCtr + 1 := rfl

/-! ### `State.completeVerdict` -/

@[simp] theorem State.completeVerdict_regs (s : State) (b : Bool) : (s.completeVerdict b).regs = s.regs := rfl
@[simp] theorem State.completeVerdict_phase (s : State) (b : Bool) : (s.completeVerdict b).phase = .idle := rfl
@[simp] theorem State.completeVerdict_ctrl (s : State) (b : Bool) : (s.completeVerdict b).ctrl = s.ctrl := rfl
@[simp] theorem State.completeVerdict_status (s : State) (b : Bool) :
    (s.completeVerdict b).status = { s.status.succeeded with pp := b } := rfl
@[simp] theorem State.completeVerdict_work (s : State) (b : Bool) :
    (s.completeVerdict b).work = Work.free s.width s.freeCtr := rfl
@[simp] theorem State.completeVerdict_rng (s : State) (b : Bool) : (s.completeVerdict b).rng = .idle := rfl
@[simp] theorem State.completeVerdict_limbs (s : State) (b : Bool) : (s.completeVerdict b).limbs = s.limbs := rfl
@[simp] theorem State.completeVerdict_inbox (s : State) (b : Bool) : (s.completeVerdict b).inbox = s.inbox := rfl
@[simp] theorem State.completeVerdict_busResp (s : State) (b : Bool) : (s.completeVerdict b).busResp = s.busResp := rfl
@[simp] theorem State.completeVerdict_rngSeq (s : State) (b : Bool) : (s.completeVerdict b).rngSeq = s.rngSeq := rfl
@[simp] theorem State.completeVerdict_freeCtr (s : State) (b : Bool) :
    (s.completeVerdict b).freeCtr = s.freeCtr + 1 := rfl

/-! ### `State.raise` -/

@[simp] theorem State.raise_regs (s : State) (e : ErrKind) : (s.raise e).regs = s.regs := rfl
@[simp] theorem State.raise_phase (s : State) (e : ErrKind) : (s.raise e).phase = .idle := rfl
@[simp] theorem State.raise_ctrl (s : State) (e : ErrKind) : (s.raise e).ctrl = s.ctrl := rfl
@[simp] theorem State.raise_status (s : State) (e : ErrKind) : (s.raise e).status = s.status.failed e := rfl
@[simp] theorem State.raise_work (s : State) (e : ErrKind) : (s.raise e).work = Work.free s.width s.freeCtr := rfl
@[simp] theorem State.raise_rng (s : State) (e : ErrKind) : (s.raise e).rng = .idle := rfl
@[simp] theorem State.raise_limbs (s : State) (e : ErrKind) : (s.raise e).limbs = s.limbs := rfl
@[simp] theorem State.raise_inbox (s : State) (e : ErrKind) : (s.raise e).inbox = s.inbox := rfl
@[simp] theorem State.raise_busResp (s : State) (e : ErrKind) : (s.raise e).busResp = s.busResp := rfl
@[simp] theorem State.raise_rngSeq (s : State) (e : ErrKind) : (s.raise e).rngSeq = s.rngSeq := rfl
@[simp] theorem State.raise_freeCtr (s : State) (e : ErrKind) : (s.raise e).freeCtr = s.freeCtr + 1 := rfl

/-! ### `State.requestWitness` -/

@[simp] theorem State.requestWitness_regs (s : State) (d e k : Nat) : (s.requestWitness d e k).regs = s.regs := rfl
@[simp] theorem State.requestWitness_phase (s : State) (d e k : Nat) : (s.requestWitness d e k).phase = .waitRng := rfl
@[simp] theorem State.requestWitness_ctrl (s : State) (d e k : Nat) : (s.requestWitness d e k).ctrl = s.ctrl := rfl
@[simp] theorem State.requestWitness_status (s : State) (d e k : Nat) :
    (s.requestWitness d e k).status = s.status := rfl
@[simp] theorem State.requestWitness_work (s : State) (d e k : Nat) :
    (s.requestWitness d e k).work = { Work.free s.width s.freeCtr with
      ir := s.work.ir, sa := s.work.sa, sb := s.work.sb, sm := s.work.sm, d := d, s := e, rnd := k } := rfl
@[simp] theorem State.requestWitness_rng (s : State) (d e k : Nat) :
    (s.requestWitness d e k).rng = .requested 2 (s.work.sm - 2) := rfl
@[simp] theorem State.requestWitness_limbs (s : State) (d e k : Nat) : (s.requestWitness d e k).limbs = s.limbs := rfl
@[simp] theorem State.requestWitness_inbox (s : State) (d e k : Nat) : (s.requestWitness d e k).inbox = s.inbox := rfl
@[simp] theorem State.requestWitness_busResp (s : State) (d e k : Nat) :
    (s.requestWitness d e k).busResp = s.busResp := rfl
@[simp] theorem State.requestWitness_rngSeq (s : State) (d e k : Nat) :
    (s.requestWitness d e k).rngSeq = s.rngSeq + 1 := rfl
@[simp] theorem State.requestWitness_freeCtr (s : State) (d e k : Nat) :
    (s.requestWitness d e k).freeCtr = s.freeCtr + 1 := rfl

/-! ### `State.engineReset` -/

@[simp] theorem State.engineReset_regs (s : State) : (s.engineReset).regs = Vector.replicate 8 0 := rfl
@[simp] theorem State.engineReset_phase (s : State) : (s.engineReset).phase = .idle := rfl
@[simp] theorem State.engineReset_ctrl (s : State) : (s.engineReset).ctrl = { ieDone := false, ieErr := false } := rfl
@[simp] theorem State.engineReset_status (s : State) :
    (s.engineReset).status = { done := false, err := false, pp := false, cmderr := false, errcode := 0 } := rfl
@[simp] theorem State.engineReset_work (s : State) : (s.engineReset).work = Work.zero := rfl
@[simp] theorem State.engineReset_rng (s : State) : (s.engineReset).rng = .idle := rfl
@[simp] theorem State.engineReset_limbs (s : State) : (s.engineReset).limbs = s.limbs := rfl
@[simp] theorem State.engineReset_inbox (s : State) : (s.engineReset).inbox = s.inbox := rfl
@[simp] theorem State.engineReset_busResp (s : State) : (s.engineReset).busResp = s.busResp := rfl
@[simp] theorem State.engineReset_rngSeq (s : State) : (s.engineReset).rngSeq = s.rngSeq := rfl
@[simp] theorem State.engineReset_freeCtr (s : State) : (s.engineReset).freeCtr = s.freeCtr := rfl

/-! ### `State.dropWrite` -/

@[simp] theorem State.dropWrite_regs (s : State) : (s.dropWrite).regs = s.regs := rfl
@[simp] theorem State.dropWrite_phase (s : State) : (s.dropWrite).phase = s.phase := rfl
@[simp] theorem State.dropWrite_ctrl (s : State) : (s.dropWrite).ctrl = s.ctrl := rfl
@[simp] theorem State.dropWrite_status (s : State) : (s.dropWrite).status = { s.status with cmderr := true } := rfl
@[simp] theorem State.dropWrite_work (s : State) : (s.dropWrite).work = s.work := rfl
@[simp] theorem State.dropWrite_rng (s : State) : (s.dropWrite).rng = s.rng := rfl
@[simp] theorem State.dropWrite_limbs (s : State) : (s.dropWrite).limbs = s.limbs := rfl
@[simp] theorem State.dropWrite_inbox (s : State) : (s.dropWrite).inbox = s.inbox := rfl
@[simp] theorem State.dropWrite_busResp (s : State) : (s.dropWrite).busResp = s.busResp := rfl
@[simp] theorem State.dropWrite_rngSeq (s : State) : (s.dropWrite).rngSeq = s.rngSeq := rfl
@[simp] theorem State.dropWrite_freeCtr (s : State) : (s.dropWrite).freeCtr = s.freeCtr := rfl

/-! ### `State.respond` -/

@[simp] theorem State.respond_regs (s : State) (b : BusResp) : (s.respond b).regs = s.regs := rfl
@[simp] theorem State.respond_phase (s : State) (b : BusResp) : (s.respond b).phase = s.phase := rfl
@[simp] theorem State.respond_ctrl (s : State) (b : BusResp) : (s.respond b).ctrl = s.ctrl := rfl
@[simp] theorem State.respond_status (s : State) (b : BusResp) : (s.respond b).status = s.status := rfl
@[simp] theorem State.respond_work (s : State) (b : BusResp) : (s.respond b).work = s.work := rfl
@[simp] theorem State.respond_rng (s : State) (b : BusResp) : (s.respond b).rng = s.rng := rfl
@[simp] theorem State.respond_limbs (s : State) (b : BusResp) : (s.respond b).limbs = s.limbs := rfl
@[simp] theorem State.respond_inbox (s : State) (b : BusResp) : (s.respond b).inbox = s.inbox := rfl
@[simp] theorem State.respond_busResp (s : State) (b : BusResp) : (s.respond b).busResp = b := rfl
@[simp] theorem State.respond_rngSeq (s : State) (b : BusResp) : (s.respond b).rngSeq = s.rngSeq := rfl
@[simp] theorem State.respond_freeCtr (s : State) (b : BusResp) : (s.respond b).freeCtr = s.freeCtr := rfl

/-! ### `State.withScript` -/

@[simp] theorem State.withScript_regs (s : State) (es : List Input) : (s.withScript es).regs = s.regs := rfl
@[simp] theorem State.withScript_phase (s : State) (es : List Input) : (s.withScript es).phase = s.phase := rfl
@[simp] theorem State.withScript_ctrl (s : State) (es : List Input) : (s.withScript es).ctrl = s.ctrl := rfl
@[simp] theorem State.withScript_status (s : State) (es : List Input) : (s.withScript es).status = s.status := rfl
@[simp] theorem State.withScript_work (s : State) (es : List Input) : (s.withScript es).work = s.work := rfl
@[simp] theorem State.withScript_rng (s : State) (es : List Input) : (s.withScript es).rng = s.rng := rfl
@[simp] theorem State.withScript_limbs (s : State) (es : List Input) : (s.withScript es).limbs = s.limbs := rfl
@[simp] theorem State.withScript_inbox (s : State) (es : List Input) : (s.withScript es).inbox = es ++ s.inbox := rfl
@[simp] theorem State.withScript_busResp (s : State) (es : List Input) : (s.withScript es).busResp = s.busResp := rfl
@[simp] theorem State.withScript_rngSeq (s : State) (es : List Input) : (s.withScript es).rngSeq = s.rngSeq := rfl
@[simp] theorem State.withScript_freeCtr (s : State) (es : List Input) : (s.withScript es).freeCtr = s.freeCtr := rfl

/-! ### Reads through an update -/

@[simp] theorem State.writeReg_reg_self (s : State) (r : Reg) (v : Nat) : (s.writeReg r v).reg r = v := by
  simp [State.reg]

theorem State.writeReg_reg_other (s : State) {r r' : Reg} (v : Nat) (h : r' ≠ r) :
    (s.writeReg r v).reg r' = s.reg r' := by
  have : r.val ≠ r'.val := fun e => h (Fin.ext e.symm)
  simp [State.reg, this]

/-- Equal register files read alike. -/
theorem State.reg_congr {s t : State} (h : t.regs = s.regs) (r : Reg) : t.reg r = s.reg r := by
  simp [State.reg, h]

@[simp] theorem State.completeReg_reg_self (s : State) (r : Reg) (v : Nat) : (s.completeReg r v).reg r = v := by
  simp [State.reg]

theorem State.completeReg_reg_other (s : State) {r r' : Reg} (v : Nat) (h : r' ≠ r) :
    (s.completeReg r v).reg r' = s.reg r' := by
  have : r.val ≠ r'.val := fun e => h (Fin.ext e.symm)
  simp [State.reg, this]

@[simp] theorem State.engineReset_reg (s : State) (r : Reg) : s.engineReset.reg r = 0 := by
  simp [State.reg]

/-! ### Status updates -/

@[simp] theorem Status.accepted_done (st : Status) : (st.accepted).done = false := rfl
@[simp] theorem Status.accepted_err (st : Status) : (st.accepted).err = false := rfl
@[simp] theorem Status.accepted_pp (st : Status) : (st.accepted).pp = st.pp := rfl
@[simp] theorem Status.accepted_cmderr (st : Status) : (st.accepted).cmderr = st.cmderr := rfl
@[simp] theorem Status.accepted_errcode (st : Status) : (st.accepted).errcode = 0 := rfl

@[simp] theorem Status.succeeded_done (st : Status) : (st.succeeded).done = true := rfl
@[simp] theorem Status.succeeded_err (st : Status) : (st.succeeded).err = st.err := rfl
@[simp] theorem Status.succeeded_pp (st : Status) : (st.succeeded).pp = st.pp := rfl
@[simp] theorem Status.succeeded_cmderr (st : Status) : (st.succeeded).cmderr = st.cmderr := rfl
@[simp] theorem Status.succeeded_errcode (st : Status) : (st.succeeded).errcode = st.errcode := rfl

@[simp] theorem Status.failed_done (st : Status) (e : ErrKind) : (st.failed e).done = true := rfl
@[simp] theorem Status.failed_err (st : Status) (e : ErrKind) : (st.failed e).err = true := rfl
@[simp] theorem Status.failed_pp (st : Status) (e : ErrKind) : (st.failed e).pp = st.pp := rfl
@[simp] theorem Status.failed_cmderr (st : Status) (e : ErrKind) : (st.failed e).cmderr = st.cmderr := rfl
@[simp] theorem Status.failed_errcode (st : Status) (e : ErrKind) : (st.failed e).errcode = e.code := rfl

@[simp] theorem Status.written_done (st : Status) (v : Word) : (st.written v).done = (st.done && !v.getLsbD 1) := rfl
@[simp] theorem Status.written_err (st : Status) (v : Word) : (st.written v).err = (st.err && !v.getLsbD 2) := rfl
@[simp] theorem Status.written_pp (st : Status) (v : Word) : (st.written v).pp = st.pp := rfl
@[simp] theorem Status.written_cmderr (st : Status) (v : Word) : (st.written v).cmderr = (st.cmderr && !v.getLsbD 4) := rfl
@[simp] theorem Status.written_errcode (st : Status) (v : Word) : (st.written v).errcode = (if v.getLsbD 2 then 0 else st.errcode) := rfl

end Sys2Proof.Machine
end

