-- ==== Sys2Proof/Laws/Ops.lean ====
section
/-! SUPPORT. What each shared operation can do, said once: the completions, the request, the free values, a limb write; and
the inversion lemmas of `exec` and of the event loop, which later proofs cite instead of unfolding the meanings. -/

namespace Sys2Proof.Machine

/-! ### Completions (60_exceptions R245, R246) -/

theorem State.completeReg_completes (s : State) (rd : Reg) (v : Nat) : CompletesReg s (s.completeReg rd v) rd v where
  frame := by constructor <;> simp
  result := by simp
  others := fun _ h => s.completeReg_reg_other v h
  pp := by simp
  err := by simp
  errcode := by simp

theorem State.completeVerdict_completes (s : State) (b : Bool) : CompletesVerdict s (s.completeVerdict b) b where
  frame := by constructor <;> simp
  regs := fun r => State.reg_congr (by simp) r
  pp := by simp
  err := by simp
  errcode := by simp

theorem State.raise_completes (s : State) (e : ErrKind) : CompletesError s (s.raise e) e where
  frame := by constructor <;> simp
  regs := fun r => State.reg_congr (by simp) r
  pp := by simp
  err := by simp
  errcode := by simp

theorem State.requestWitness_asks (s : State) (d e rnd : Nat)
    (hs : d * 2 ^ e = s.work.sm - 1) (hd : d % 2 = 1) : AsksWitness s (s.requestWitness d e rnd) rnd where
  waits := by simp
  request := by simp
  number := by simp
  candidate := by simp
  command := by simp
  split := by simpa using hs
  odd := by simpa using hd
  rounds := by simp
  regs := fun r => State.reg_congr (by simp) r
  status := by simp
  ctrl := by simp
  limbs := by simp
  inbox := by simp
  busResp := by simp

/-! ### What one engine event can be -/

/-- Everything the event of command `i` can leave: the result in its destination, an error, and for the one command without
a destination, `MRTEST`, a verdict or a request. -/
inductive EngineEvent (i : Instr) (s : State) : State → Prop where
  | result (rd : Reg) (v : Nat) (h : destination i = some rd) : EngineEvent i s (s.completeReg rd v)
  | verdict (b : Bool) (h : destination i = none) : EngineEvent i s (s.completeVerdict b)
  | error (e : ErrKind) : EngineEvent i s (s.raise e)
  | request (d e rnd : Nat) (h : destination i = none) : EngineEvent i s (s.requestWitness d e rnd)

/-- The one command without a destination. -/
theorem destination_none {i : Instr} (h : destination i = none) : ∃ rm rounds, i = .mrtest rm rounds := by
  cases i with
  | mrtest rm rounds => exact ⟨rm, rounds, rfl⟩
  | _ => simp [destination] at h

theorem State.nextRound_event {i : Instr} (hi : destination i = none) (s : State) (d e rnd : Nat) :
    EngineEvent i s (s.nextRound d e rnd) := by
  cases rnd with
  | zero => exact .verdict true hi
  | succ r => exact .request d e r hi

theorem State.startTest_event {i : Instr} (hi : destination i = none) (s : State) (rounds : Nat) :
    EngineEvent i s (s.startTest rounds) := by
  unfold State.startTest
  split
  · exact .verdict _ hi
  · exact s.nextRound_event hi _ _ _

theorem State.resumeTest_event {i : Instr} (hi : destination i = none) (s : State) (ok : Bool) (a : Nat) :
    EngineEvent i s (s.resumeTest ok a) := by
  unfold State.resumeTest
  split
  · exact .error _
  · split
    · exact s.nextRound_event hi _ _ _
    · exact .verdict _ hi

/-- A command's event always happens, and is one of the four. -/
theorem exec_event (i : Instr) (s : State) : ∃ t, exec i s = .next t ∧ EngineEvent i s t := by
  cases i with
  | gcd rd ra rb => exact ⟨_, rfl, .result _ _ rfl⟩
  | lcm rd ra rb =>
    simp only [exec, execLcm]
    split
    · exact ⟨_, rfl, .result _ _ rfl⟩
    · exact ⟨_, rfl, .error _⟩
  | modmul rd ra rb rm =>
    simp only [exec, execModmul]
    split
    · exact ⟨_, rfl, .error _⟩
    · exact ⟨_, rfl, .result _ _ rfl⟩
  | modpow rd ra rb rm =>
    simp only [exec, execModpow]
    split
    · exact ⟨_, rfl, .error _⟩
    · exact ⟨_, rfl, .result _ _ rfl⟩
  | encrypt rd ra rb rm =>
    simp only [exec, execEncrypt]
    split
    · exact ⟨_, rfl, .error _⟩
    · exact ⟨_, rfl, .result _ _ rfl⟩
  | modinv rd ra rm =>
    simp only [exec, execModinv]
    split
    · exact ⟨_, rfl, .error _⟩
    · split
      · exact ⟨_, rfl, .error _⟩
      · exact ⟨_, rfl, .result _ _ rfl⟩
  | mrtest rm rounds =>
    simp only [exec, execMrtest]
    split
    · exact ⟨_, rfl, s.resumeTest_event rfl _ _⟩
    · exact ⟨_, rfl, s.startTest_event rfl _⟩

/-- The event of a command, from its outcome. -/
theorem exec_cases {i : Instr} {s t : State} (h : exec i s = .next t) : EngineEvent i s t := by
  obtain ⟨u, hu, he⟩ := exec_event i s
  rw [hu] at h
  cases h
  exact he

/-- The engine's turn: nothing while idle or waiting, else the command's event or `IllegalCommand`. -/
theorem State.engineTurn_cases (s : State) :
    (s.phase ≠ .run ∧ s.engineTurn = .next s) ∨
      (s.phase = .run ∧ ∃ i, s.currentCommand = .ok i ∧ s.engineTurn = exec i s) ∨
      (s.phase = .run ∧ ∃ e, s.currentCommand = .illegal e ∧ s.engineTurn = .next (s.raise .illegalCommand)) := by
  unfold State.engineTurn
  cases h : s.phase with
  | idle => simp
  | waitRng => simp
  | run =>
    cases hc : s.currentCommand with
    | ok i => simp
    | illegal e => simp

/-! ### Free values (10_state R48) -/

theorem freeBelow_lt (bound c k : Nat) (h : 0 < bound) : freeBelow bound c k < bound := Nat.mod_lt _ h

/-- Whatever the free values are, each is within its register's width. -/
theorem Work.free_fits (w c : Nat) : (Work.free w c).Fits w := by
  have hp : ∀ b k, freeBelow (2 ^ b) c k < 2 ^ b := fun b k => freeBelow_lt _ _ _ (Nat.two_pow_pos b)
  have ht : ∀ k, -(2 : Int) ^ (w + 1) ≤ (freeBelow (2 ^ (w + 2)) c k : Int) - 2 ^ (w + 1) ∧
      (freeBelow (2 ^ (w + 2)) c k : Int) - 2 ^ (w + 1) < 2 ^ (w + 1) := by
    intro k
    have h : (freeBelow (2 ^ (w + 2)) c k : Int) < 2 ^ (w + 2) := by exact_mod_cast hp (w + 2) k
    have h2 : (2 : Int) ^ (w + 2) = 2 * 2 ^ (w + 1) := by ring
    constructor <;> omega
  exact {
    sa := hp _ _, sb := hp _ _, sm := hp _ _, u := hp _ _, v := hp _ _, res := hp _ _, bas := hp _ _, exp := hp _ _,
    prod := hp _ _, rem0 := hp _ _, rem1 := hp _ _, t0 := ht _, t1 := ht _, q := hp _ _, d := hp _ _, s := hp _ _,
    x := hp _ _, rnd := hp _ _, j := hp _ _ }

/-! ### Limbs (20_memory R75) -/

theorem limb_toNat (v k : Nat) : (limb v k).toNat = v / 2 ^ (32 * k) % 2 ^ 32 := by
  simp [limb, BitVec.toNat_ofNat]

/-- A limb written reads back. -/
theorem limb_setLimb_self (v k : Nat) (w : Word) : limb (setLimb v k w) k = w := by
  have hw := w.isLt
  have hp := Nat.two_pow_pos (32 * k)
  apply BitVec.eq_of_toNat_eq
  rw [limb_toNat, setLimb, pow_add]
  have h : v / (2 ^ (32 * k) * 2 ^ 32) * (2 ^ (32 * k) * 2 ^ 32) + w.toNat * 2 ^ (32 * k) + v % 2 ^ (32 * k) =
      v % 2 ^ (32 * k) + 2 ^ (32 * k) * (w.toNat + v / (2 ^ (32 * k) * 2 ^ 32) * 2 ^ 32) := by ring
  rw [h, Nat.add_mul_div_left _ _ hp, Nat.div_eq_of_lt (Nat.mod_lt _ hp)]
  omega

/-- A write of a limb inside a `32 * l`-bit register keeps it `32 * l` bits wide. -/
theorem setLimb_lt (v k l : Nat) (w : Word) (hk : k < l) (hv : v < 2 ^ (32 * l)) : setLimb v k w < 2 ^ (32 * l) := by
  have hw := w.isLt
  have hp := Nat.two_pow_pos (32 * k)
  have hm := Nat.mod_lt v hp
  obtain ⟨j, rfl⟩ : ∃ j, l = k + 1 + j := ⟨l - (k + 1), by omega⟩
  have hsplit : 2 ^ (32 * (k + 1 + j)) = 2 ^ (32 * k + 32) * 2 ^ (32 * j) := by rw [← pow_add]; ring_nf
  have hq : v / 2 ^ (32 * k + 32) < 2 ^ (32 * j) := by
    rw [Nat.div_lt_iff_lt_mul (Nat.two_pow_pos _), mul_comm, ← hsplit]
    exact hv
  have hlow : w.toNat * 2 ^ (32 * k) + v % 2 ^ (32 * k) < 2 ^ (32 * k + 32) := by
    rw [pow_add]
    calc w.toNat * 2 ^ (32 * k) + v % 2 ^ (32 * k) < w.toNat * 2 ^ (32 * k) + 2 ^ (32 * k) := by omega
      _ = (w.toNat + 1) * 2 ^ (32 * k) := by ring
      _ ≤ 2 ^ 32 * 2 ^ (32 * k) := Nat.mul_le_mul_right _ hw
      _ = 2 ^ (32 * k) * 2 ^ 32 := by ring
  rw [setLimb, hsplit, add_assoc]
  calc v / 2 ^ (32 * k + 32) * 2 ^ (32 * k + 32) + (w.toNat * 2 ^ (32 * k) + v % 2 ^ (32 * k))
      < v / 2 ^ (32 * k + 32) * 2 ^ (32 * k + 32) + 2 ^ (32 * k + 32) := by omega
    _ = 2 ^ (32 * k + 32) * (v / 2 ^ (32 * k + 32) + 1) := by ring
    _ ≤ 2 ^ (32 * k + 32) * 2 ^ (32 * j) := Nat.mul_le_mul_left _ hq

/-! ### One step, by the event it takes (20_memory R81) -/

theorem step_idle_inbox {s : State} (h : s.inbox = []) : step s = s.engineTurn := by
  simp [step, State.nextEvent, h]

theorem step_event {s : State} {e : Input} {rest : List Input} (h : s.inbox = e :: rest) :
    step s = State.perform { s with inbox := rest } e := by
  simp [step, State.nextEvent, h]

/-- On the engine's turn a step is the turn, with that entry off the inbox. -/
theorem step_engineMoves {s : State} (h : s.engineMoves) :
    ∃ rest, step s = State.engineTurn { s with inbox := rest } := by
  rcases h with h | ⟨rest, h⟩
  · exact ⟨s.inbox, step_idle_inbox h⟩
  · exact ⟨rest, step_event h⟩

/-! ### The register map (20_memory R71) -/

/-- The offset of a control register, from what an access reaches. -/
def controlOffset : Target → Option Nat
  | .id => some 0x000
  | .cfg => some 0x004
  | .ctrl => some 0x008
  | .status => some 0x00C
  | .cmd => some 0x010
  | .limb _ _ => none

/-- A legal access is 32 bits wide, and reaches a control register only at its own offset. -/
theorem busTarget_offset {limbs addr width : Nat} {t : Target} (h : busTarget limbs addr width = some t) :
    width = 4 ∧ ∀ a, controlOffset t = some a → addr = a := by
  unfold busTarget at h
  split_ifs at h with h1 h2 h3 h4 h5 h6 h7
  all_goals
    have hw : width = 4 := by omega
    simp only [Option.some.injEq] at h
    subst h
    refine ⟨hw, fun a ha => ?_⟩
    simp only [controlOffset, Option.some.injEq, reduceCtorEq] at ha
    try omega

/-- A mapped limb is a limb the register has. -/
theorem busTarget_limb_lt {limbs addr width : Nat} {r : Reg} {k : Nat}
    (h : busTarget limbs addr width = some (.limb r k)) : k < limbs := by
  unfold busTarget at h
  repeat' split at h
  all_goals try (simp at h; done)
  rename_i hr
  simp only [Option.some.injEq, Target.limb.injEq] at h
  rw [← h.2]
  have hpos : 0 < stride limbs := by omega
  have hmod := Nat.mod_lt (addr - 0x100) hpos
  unfold stride at *
  omega

end Sys2Proof.Machine
end

