-- ==== Sys2Proof/Laws/PerInstr.lean ====
section
/-! SUPPORT. The family `FieldsInPlace`: in every encoded command the opcode, the immediate and the reserved field stand
where spec/30_encoding.md R101 puts them, with the values R104 and R105 give them. -/

namespace Sys2Proof.Laws

/-- The `op` column of 30_encoding R104. -/
def opcodeOf : Instr → Nat
  | .gcd _ _ _ => 0x01
  | .lcm _ _ _ => 0x02
  | .modmul _ _ _ _ => 0x03
  | .modpow _ _ _ _ => 0x04
  | .encrypt _ _ _ _ => 0x05
  | .modinv _ _ _ => 0x06
  | .mrtest _ _ => 0x07

/-- The immediate of a command: the rounds of `MRTEST`, else 0 (30_encoding R102, R105). -/
def immediateOf : Instr → Nat
  | .gcd _ _ _ => 0
  | .lcm _ _ _ => 0
  | .modmul _ _ _ _ => 0
  | .modpow _ _ _ _ => 0
  | .encrypt _ _ _ _ => 0
  | .modinv _ _ _ => 0
  | .mrtest _ rounds => rounds

namespace FieldsInPlace

/-- The claim of the family about one command. -/
def Statement (i : Instr) : Prop :=
  i.wellFormed = true →
    bits 31 24 (encode i) = opcodeOf i ∧ bits 23 16 (encode i) = immediateOf i ∧ bits 15 12 (encode i) = 0

/-- What holds of any word `encodeFields` makes. -/
theorem of_fields (op imm8 : Nat) (rd ra rb rm : Reg) (ho : op < 256) (hi : imm8 < 256) :
    bits 31 24 (encodeFields op imm8 rd ra rb rm) = op ∧ bits 23 16 (encodeFields op imm8 rd ra rb rm) = imm8 ∧
      bits 15 12 (encodeFields op imm8 rd ra rb rm) = 0 :=
  ⟨encodeFields_op _ _ _ _ _ _ ho hi, encodeFields_imm8 _ _ _ _ _ _ ho hi, encodeFields_rsv _ _ _ _ _ _ ho hi⟩

theorem gcd (rd ra rb : Reg) : Statement (.gcd rd ra rb) :=
  fun _ => of_fields _ _ _ _ _ _ (by decide) (by decide)

theorem lcm (rd ra rb : Reg) : Statement (.lcm rd ra rb) :=
  fun _ => of_fields _ _ _ _ _ _ (by decide) (by decide)

theorem modmul (rd ra rb rm : Reg) : Statement (.modmul rd ra rb rm) :=
  fun _ => of_fields _ _ _ _ _ _ (by decide) (by decide)

theorem modpow (rd ra rb rm : Reg) : Statement (.modpow rd ra rb rm) :=
  fun _ => of_fields _ _ _ _ _ _ (by decide) (by decide)

theorem encrypt (rd ra rb rm : Reg) : Statement (.encrypt rd ra rb rm) :=
  fun _ => of_fields _ _ _ _ _ _ (by decide) (by decide)

theorem modinv (rd ra rm : Reg) : Statement (.modinv rd ra rm) :=
  fun _ => of_fields _ _ _ _ _ _ (by decide) (by decide)

theorem mrtest (rm : Reg) (rounds : Nat) : Statement (.mrtest rm rounds) :=
  fun h => of_fields _ _ _ _ _ _ (by decide) (by simpa [Instr.wellFormed] using h)

end FieldsInPlace

end Sys2Proof.Laws
end

