-- ==== Sys2Proof/Machine/Assembler.lean ====
section
/-! DEFINITION. The assembler's notation for one command line, written and read (spec/30_encoding.md R109, R110). Lines are
lists of characters. It is host software: no engine rule depends on it. -/

namespace Sys2Proof.Assembler

/-- `G0`..`G7`. -/
def regName (r : Reg) : List Char := ['G', Nat.digitChar r.val]

/-- The words of R109 and R110. -/
def mnemonic : Instr → List Char
  | .gcd _ _ _ => ['G', 'C', 'D']
  | .lcm _ _ _ => ['L', 'C', 'M']
  | .modmul _ _ _ _ => ['M', 'O', 'D', 'M', 'U', 'L']
  | .modpow _ _ _ _ => ['M', 'O', 'D', 'P', 'O', 'W']
  | .encrypt _ _ _ _ => ['E', 'N', 'C', 'R', 'Y', 'P', 'T']
  | .modinv _ _ _ => ['M', 'O', 'D', 'I', 'N', 'V']
  | .mrtest _ _ => ['M', 'R', 'T', 'E', 'S', 'T']

/-- The operands in the order of 30_encoding R104, destination first. -/
def operands : Instr → List (List Char)
  | .gcd rd ra rb => [regName rd, regName ra, regName rb]
  | .lcm rd ra rb => [regName rd, regName ra, regName rb]
  | .modmul rd ra rb rm => [regName rd, regName ra, regName rb, regName rm]
  | .modpow rd ra rb rm => [regName rd, regName ra, regName rb, regName rm]
  | .encrypt rd ra rb rm => [regName rd, regName ra, regName rb, regName rm]
  | .modinv rd ra rm => [regName rd, regName ra, regName rm]
  | .mrtest rm rounds => [regName rm, '#' :: Nat.toDigits 10 rounds]

/-- Operands joined by a comma and a space. -/
def joinOperands : List (List Char) → List Char
  | [] => []
  | [o] => o
  | o :: rest => o ++ ',' :: ' ' :: joinOperands rest

/-- The line of a command (R109). -/
def print (i : Instr) : List Char := mnemonic i ++ ' ' :: joinOperands (operands i)

/-- A register name. -/
def readReg : List Char → Option Reg
  | ['G', c] => if '0' ≤ c ∧ c ≤ '7' then some (Fin.ofNat 8 (c.toNat - '0'.toNat)) else none
  | _ => none

/-- The value of a digit character, hexadecimal digits of either case included. -/
def digitValue (c : Char) : Nat :=
  if '0' ≤ c ∧ c ≤ '9' then c.toNat - '0'.toNat
  else if 'a' ≤ c ∧ c ≤ 'f' then c.toNat - 'a'.toNat + 10
  else if 'A' ≤ c ∧ c ≤ 'F' then c.toNat - 'A'.toNat + 10
  else 16

/-- Digits to the given base after what has been read; any other character is refused. -/
def readDigits (base acc : Nat) : List Char → Option Nat
  | [] => some acc
  | c :: rest => if digitValue c < base then readDigits base (acc * base + digitValue c) rest else none

/-- An immediate: `#`, then a decimal or `0x` hexadecimal number in 0..255 (R109). -/
def readImmediate : List Char → Option Nat
  | '#' :: '0' :: 'x' :: c :: cs => (readDigits 16 0 (c :: cs)).filter fun v => decide (v < 256)
  | '#' :: c :: cs => (readDigits 10 0 (c :: cs)).filter fun v => decide (v < 256)
  | _ => none

/-- Without the spaces at either end. -/
def trim (cs : List Char) : List Char :=
  ((cs.dropWhile (· == ' ')).reverse.dropWhile (· == ' ')).reverse

/-- The parts between commas. -/
def splitCommas : List Char → List (List Char)
  | [] => [[]]
  | c :: rest =>
    match splitCommas rest with
    | [] => [[c]]
    | part :: parts => if c = ',' then [] :: part :: parts else (c :: part) :: parts

/-- The command with this mnemonic and these operands. -/
def readCommand (word : List Char) (ops : List (List Char)) : Option Instr :=
  match ops with
  | [a, b] =>
    if word = ['M', 'R', 'T', 'E', 'S', 'T'] then
      (readReg a).bind fun rm => (readImmediate b).map fun k => .mrtest rm k
    else none
  | [a, b, c] =>
    (readReg a).bind fun x => (readReg b).bind fun y => (readReg c).bind fun z =>
      if word = ['G', 'C', 'D'] then some (.gcd x y z)
      else if word = ['L', 'C', 'M'] then some (.lcm x y z)
      else if word = ['M', 'O', 'D', 'I', 'N', 'V'] then some (.modinv x y z)
      else none
  | [a, b, c, d] =>
    (readReg a).bind fun x => (readReg b).bind fun y => (readReg c).bind fun z => (readReg d).bind fun m =>
      if word = ['M', 'O', 'D', 'M', 'U', 'L'] then some (.modmul x y z m)
      else if word = ['M', 'O', 'D', 'P', 'O', 'W'] then some (.modpow x y z m)
      else if word = ['E', 'N', 'C', 'R', 'Y', 'P', 'T'] then some (.encrypt x y z m)
      else if word = ['D', 'E', 'C', 'R', 'Y', 'P', 'T'] then some (pseudoDecrypt x y z m)
      else none
  | [a] =>
    if word = ['I', 'S', 'P', 'R', 'I', 'M', 'E'] then (readReg a).map pseudoIsPrime else none
  | _ => none

/-- One line: a mnemonic, a space, operands; `;` starts a comment (R109). `none` is no command. -/
def assemble (line : List Char) : Option Instr :=
  let text := trim (line.takeWhile (· != ';'))
  let word := text.takeWhile (· != ' ')
  readCommand word ((splitCommas (text.drop word.length)).map trim)

end Sys2Proof.Assembler
end

