-- ==== Sys2Proof/Tests/Slice0.lean ====
section
/-! SUPPORT. The model's own tests. Every expected value is one of spec/95_test_vectors.md or of the rule the test names. -/

namespace Sys2Proof.Tests

open Sys2Proof.Machine

/-- A machine at the least width, `W = 64`, with these values in `x[0]`..`x[3]` and 5 in `x[7]`. -/
def machine (x0 x1 x2 x3 : Nat) : State :=
  { State.reset with limbs := 2, regs := #v[x0, x1, x2, x3, 0, 0, 0, 5] }

/-- The next state of a step, if there is one. -/
def after (s : State) : Option State :=
  match step s with
  | .next t => some t
  | .fault _ => none
  | .refused _ => none

/-- Register `r` and `STATUS` after the command word `c` has run. -/
def result (s : State) (c : Nat) (r : Reg) : Option (Nat × Word) :=
  (after (s.withFetchWord 32 c)).map fun t => (t.reg r, t.statusWord)

/-! ### WellFormed refuses an ill-formed term for its one check (30_encoding R102) -/

theorem test_wellFormed_refuses_rounds_256 : (Instr.mrtest 0 256).wellFormed = false := by decide

theorem test_wellFormed_admits_rounds_255 : (Instr.mrtest 7 255).wellFormed = true := by decide

/-! ### Decoding (95_test_vectors section 2.1; bit by bit from 30_encoding R101) -/

theorem test_decode_gcd : decode 0b00000001_00000000_0000_010_000_001_000#32 = .ok (.gcd 2 0 1) := by decide

theorem test_decode_gcd_again : decode 0x010008D0#32 = .ok (.gcd 4 3 2) := by decide

theorem test_decode_lcm : decode 0b00000010_00000000_0000_010_000_001_000#32 = .ok (.lcm 2 0 1) := by decide

theorem test_decode_modmul : decode 0b00000011_00000000_0000_011_000_001_010#32 = .ok (.modmul 3 0 1 2) := by decide

theorem test_decode_modpow : decode 0b00000100_00000000_0000_011_000_001_010#32 = .ok (.modpow 3 0 1 2) := by decide

theorem test_decode_modpow_top : decode 0x04000FFF#32 = .ok (.modpow 7 7 7 7) := by decide

theorem test_decode_encrypt : decode 0b00000101_00000000_0000_101_000_011_001#32 = .ok (.encrypt 5 0 3 1) := by decide

theorem test_decode_modinv : decode 0b00000110_00000000_0000_100_011_000_010#32 = .ok (.modinv 4 3 2) := by decide

theorem test_decode_mrtest : decode 0b00000111_00001010_0000_000_000_000_010#32 = .ok (.mrtest 2 10) := by decide

theorem test_decode_mrtest_top : decode 0x07FF0007#32 = .ok (.mrtest 7 255) := by decide

theorem test_decode_zero : decode 0x00000000#32 = .illegal .reservedOpcode := by decide

theorem test_decode_op8 : decode 0x08000000#32 = .illegal .reservedOpcode := by decide

theorem test_decode_ones : decode 0xFFFFFFFF#32 = .illegal .reservedField := by decide

theorem test_decode_gcd_rm : decode 0x0100040B#32 = .illegal .mustBeZeroField := by decide

theorem test_decode_gcd_imm8 : decode 0x01010408#32 = .illegal .mustBeZeroField := by decide

theorem test_decode_rsv : decode 0x01001408#32 = .illegal .reservedField := by decide

theorem test_decode_modpow_imm8 : decode 0x040A060A#32 = .illegal .mustBeZeroField := by decide

theorem test_decode_modinv_rb : decode 0x060008CA#32 = .illegal .mustBeZeroField := by decide

theorem test_decode_mrtest_fields :
    decode 0x070A0202#32 = .illegal .mustBeZeroField ∧ decode 0x070A0042#32 = .illegal .mustBeZeroField ∧
      decode 0x070A000A#32 = .illegal .mustBeZeroField := by decide

/-- 30_encoding R109. -/
theorem test_encode_table :
    encode (.gcd 2 0 1) = 0x01000408#32 ∧ encode (.lcm 2 0 1) = 0x02000408#32 ∧
      encode (.modmul 3 0 1 2) = 0x0300060A#32 ∧ encode (.modpow 3 0 1 2) = 0x0400060A#32 ∧
      encode (.encrypt 5 0 3 1) = 0x05000A19#32 ∧ encode (.modinv 4 3 2) = 0x060008C2#32 ∧
      encode (.mrtest 2 10) = 0x070A0002#32 := by decide

theorem test_decodeTableWord : decodeTableWord 32 0x01000408 = some (.gcd 2 0 1) := by decide

/-- 30_encoding R110: `DECRYPT G6, G5, G4, G1` of program P1. -/
theorem test_pseudo_decrypt : encode (pseudoDecrypt 6 5 4 1) = 0x04000D61#32 := by decide

/-- 30_encoding R110: `ISPRIME G2`. -/
theorem test_pseudo_isPrime : encode (pseudoIsPrime 2) = 0x070A0002#32 := by decide

/-! ### The arithmetic core (section 3.1) -/

theorem test_condSub : condSub 9 7 = 2 ∧ condSub 6 7 = 6 ∧ condSub 7 7 = 0 ∧ condSub 13 7 = 6 := by decide

theorem test_modMulRef : modMulRef 8 5 3 7 = 1 := by decide

theorem test_divRemRef : divRemRef 60 52 = (1, 8) := by decide

/-! ### GCD and LCM (section 3.2) -/

theorem test_gcd : result (machine 60 52 0 0) 0x01000408 2 = some (4, 0x2#32) := by decide

theorem test_gcd_destination_is_source : result (machine 9 0 0 0) 0x01000000 0 = some (9, 0x2#32) := by decide

theorem test_lcm : result (machine 60 52 0 0) 0x02000408 2 = some (780, 0x2#32) := by decide

/-- The overflow of section 3.2 at `W = 64`: `Lcm(2^63, 2^63 - 1)`; the destination keeps 7. -/
theorem test_lcm_overflow :
    result (machine 9223372036854775808 9223372036854775807 7 0) 0x02000408 2 = some (7, 0x1106#32) := by decide

/-! ### MODMUL, MODPOW, ENCRYPT (section 3.3) -/

theorem test_modmul : result (machine 5000 1 3233 0) 0x0300060A 3 = some (1767, 0x2#32) := by decide

theorem test_modmul_modulus_zero : result (machine 7 8 0 6) 0x0300060A 3 = some (6, 0x106#32) := by decide

theorem test_modpow : result (machine 65 17 3233 0) 0x0400060A 3 = some (2790, 0x2#32) := by decide

theorem test_modpow_same_register : result (machine 0 0 0 0) 0x04000FFF 7 = some (0, 0x2#32) := by decide

theorem test_encrypt : result (machine 65 3233 0 17) 0x05000A19 5 = some (2790, 0x2#32) := by decide

theorem test_encrypt_modulus_zero : result (machine 0 0 0 17) 0x05000A19 5 = some (0, 0x306#32) := by decide

/-! ### MODINV (section 3.4) -/

theorem test_modinv : result (machine 0 0 780 17) 0x060008C2 4 = some (413, 0x2#32) := by decide

theorem test_modinv_none : result (machine 0 0 9 6) 0x060008C2 4 = some (0, 0x206#32) := by decide

/-! ### MRTEST (section 3.6) -/

/-- A test of `n` in progress with one round out and `left` to go: `D = d`, `S = e`, the answer `(1, a)` in hand. -/
def midTest (n d e a left : Nat) : State :=
  let s := machine 0 0 n 0
  { s with
    phase := .run, rng := .answered true a,
    work := { s.work with ir := 0x070A0002#32, sm := n, d := d, s := e, rnd := left } }

theorem test_mrtest_request :
    (after ((machine 0 0 561 0).withFetchWord 32 0x070A0002)).map
        (fun t => (t.phase, t.rng, t.work.d, t.work.s, t.work.rnd)) =
      some (.waitRng, .requested 2 559, 35, 4, 9) := by decide

theorem test_mrtest_composite :
    (after (midTest 561 35 4 2 9)).map (fun t => (t.phase, t.statusWord)) = some (.idle, 0x2#32) := by decide

theorem test_mrtest_strong_liar_passes :
    (after (midTest 561 35 4 50 0)).map (fun t => t.statusWord) = some 0xA#32 := by decide

theorem test_mrtest_out_of_range :
    (after (midTest 561 35 4 560 9)).map (fun t => t.statusWord) = some 0x1206#32 := by decide

/-- "passes at the 15th squaring (S−1 = 15)". -/
theorem test_round_65537 : roundPasses 65537 1 16 3 = true := by decide

theorem test_round_9 : roundPasses 9 1 3 2 = false := by decide

/-- `MRTEST` of 9 with no rounds (44_mrtest R208). -/
theorem test_mrtest_no_rounds : result (machine 9 0 0 0) 0x07000000 0 = some (9, 0xA#32) := by decide

/-! ### Illegal words, the bus and reset (sections 2.2, 2.3, 3.5 and program P4) -/

theorem test_illegal : result State.reset 0x00000000 0 = some (0, 0x1006#32) := by decide

theorem test_bus_reads :
    State.reset.busRead 0x000 4 = some 0x4D524E54#32 ∧ State.reset.busRead 0x004 4 = some 0x810#32 ∧
      State.reset.busRead 0x010 4 = some 0#32 := by decide

theorem test_bus_errors :
    State.reset.busRead 0x014 4 = none ∧ State.reset.busRead 0x0FC 4 = none ∧ State.reset.busRead 0x300 4 = none ∧
      State.reset.busRead 0x102 4 = none ∧ State.reset.busRead 0x100 2 = none := by decide

theorem test_limb_addresses :
    limbAddr 16 0 0 = 0x100 ∧ limbAddr 16 7 0 = 0x2C0 ∧ limbAddr 16 7 15 = 0x2FC ∧ limbAddr 8 7 0 = 0x1E0 := by decide

/-- At `W = 256`, `CFG = 0x00000808`. -/
theorem test_cfg_256 : ({ State.reset with limbs := 8 } : State).cfgWord = 0x808#32 := by decide

/-- The layout of 20_memory R76: the bytes of "Hello". -/
theorem test_limb_layout :
    (machine 0x48656C6C6F 0 0 0).busRead 0x100 4 = some 0x656C6C6F#32 ∧
      (machine 0x48656C6C6F 0 0 0).busRead 0x104 4 = some 0x48#32 ∧
      (machine 0x48656C6C6F 0 0 0).windowByte 0x104 = some 0x48#8 := by decide

theorem test_ctrl_write : ((machine 0 0 0 0).hostWrite 0x008 4 0x7FFFFFFF#32).ctrlWord = 0x3#32 := by decide

theorem test_soft_reset_ignores_enables :
    ((midTest 561 35 4 2 9).hostWrite 0x008 4 0x80000003#32).ctrlWord = 0#32 ∧
      ((midTest 561 35 4 2 9).hostWrite 0x008 4 0x80000003#32).reg 2 = 0 := by decide

/-- Program P4, events 4 and 8. -/
theorem test_write_while_busy_dropped :
    ((midTest 561 35 4 2 9).hostWrite 0x110 4 0x7#32).reg 2 = 561 ∧
      ((midTest 561 35 4 2 9).hostWrite 0x110 4 0x7#32).statusWord = 0x11#32 := by decide

/-- Section 3.5: after an `IllegalCommand`, `STATUS <- 0x4` leaves `DONE`. -/
theorem test_status_write_one_to_clear :
    (((machine 0 0 0 0).raise .illegalCommand).hostWrite 0x00C 4 0x4#32).statusWord = 0x2#32 := by decide

theorem test_accepting_clears_error :
    (((machine 0 0 0 0).raise .illegalCommand).hostWrite 0x010 4 0x01000408#32).statusWord = 0x1#32 := by decide

/-! ### The codec (20_memory R76) -/

theorem test_encode_hello : Driver.encodeBytes [0x48#8, 0x65#8, 0x6C#8, 0x6C#8, 0x6F#8] = 0x48656C6C6F := by decide

theorem test_decode_too_large : Driver.decodeBytes 256 1 = none := by decide

/-! ### The assembler (30_encoding R109) -/

/-- `GCD G2, G0, G1`. -/
theorem test_assemble_gcd :
    Assembler.assemble ['G', 'C', 'D', ' ', 'G', '2', ',', ' ', 'G', '0', ',', ' ', 'G', '1'] =
      some (.gcd 2 0 1) := by decide

/-- `MRTEST G2, #10`. -/
theorem test_print_mrtest :
    Assembler.print (.mrtest 2 10) =
      ['M', 'R', 'T', 'E', 'S', 'T', ' ', 'G', '2', ',', ' ', '#', '1', '0'] := by decide

/-! ### Witnesses: for each statement with hypotheses, a concrete input that meets all of them (one per clause) -/

/-- A machine with these events to come. -/
def expecting (es : List Input) : State := (machine 60 52 780 17).withScript es

/-- The same, busy: a test of 561 waits for the answer to its request number 0. -/
def waiting (es : List Input) : State :=
  let s := machine 0 0 561 0
  { s with
    phase := .waitRng, rng := .requested 2 559, inbox := es,
    work := { s.work with ir := 0x070A0002#32, sm := 561, d := 35, s := 4, rnd := 9 } }

/-- A command of word `c` accepted with these latched sources, the engine to move. -/
def running (c : Word) (a b m : Nat) (es : List Input) : State :=
  let s := machine 0 0 0 0
  { s with phase := .run, inbox := es, work := { s.work with ir := c, sa := a, sb := b, sm := m } }

theorem witness_DecodeAfterEncodeIsIdentity : (Instr.mrtest 7 255).wellFormed = true := by decide

theorem witness_EncodeAfterDecodeIsIdentity : decode 0x07FF0007#32 = .ok (.mrtest 7 255) := by decide

/-- One word for each disjunct, at the edge of its range. -/
theorem witness_ReservedWordsAreIllegal :
    bits 31 24 0x00FFFFFF#32 = 0 ∧ bits 31 24 0x08000000#32 = 8 ∧ bits 15 12 0x01001408#32 ≠ 0 ∧
      (bits 31 24 0x06010000#32 ≠ 7 ∧ bits 23 16 0x06010000#32 ≠ 0) ∧
      (bits 31 24 0x02000001#32 = 2 ∧ regField 0 0x02000001#32 ≠ 0) ∧
      (bits 31 24 0x060008CA#32 = 6 ∧ regField 3 0x060008CA#32 ≠ 0) ∧
      (bits 31 24 0x070A0202#32 = 7 ∧ regField 9 0x070A0202#32 ≠ 0) := by decide

theorem witness_IllegalWordCompletesWithIllegalCommand :
    (expecting [.write 0x010 4 0#32, .engine]).phase = .idle ∧ decode 0#32 = .illegal .reservedOpcode ∧
      (expecting [.write 0x010 4 0#32, .engine]).inbox = .write 0x010 4 0#32 :: .engine :: [] := by decide

theorem witness_StepRunsDecodedCommand :
    (running 0x01000408#32 60 52 0 []).phase = .run ∧
      decode (running 0x01000408#32 60 52 0 []).work.ir = .ok (.gcd 2 0 1) ∧
      (running 0x01000408#32 60 52 0 []).inbox = [] ∧
      (running 0x01000408#32 60 52 0 [.engine]).inbox = .engine :: [] := by decide

theorem witness_FetchWordStepRunsCommand :
    decodeTableWord 32 0x07FF0007 = some (.mrtest 7 255) ∧ 0x07FF0007 < 2 ^ 32 := by decide

theorem witness_CommandWriteIsAcceptance :
    (expecting [.write 0x010 4 0x01000408#32]).phase = .idle ∧
      (expecting [.write 0x010 4 0x01000408#32]).inbox = .write 0x010 4 0x01000408#32 :: [] := by decide

/-- Each clause: a limb write, a `CMD` write, a `CTRL` write, a `STATUS` write and a read, all while busy. -/
theorem witness_BusyWritesAreDropped :
    (waiting [.write 0x110 4 7#32]).phase ≠ .idle ∧ busTarget 2 0x110 4 = some (.limb 2 0) ∧
      (waiting [.write 0x110 4 7#32]).inbox = .write 0x110 4 7#32 :: [] ∧
      (waiting [.write 0x010 4 7#32]).inbox = .write 0x010 4 7#32 :: [] ∧
      (3#32 : Word).getLsbD 31 = false ∧ (waiting [.write 0x008 4 3#32]).inbox = .write 0x008 4 3#32 :: [] ∧
      (waiting [.write 0x00C 4 16#32]).inbox = .write 0x00C 4 16#32 :: [] ∧
      (waiting [.read 0x010 4]).inbox = .read 0x010 4 :: [] ∧ busTarget 2 0x010 4 = some .cmd ∧
      (after (waiting [.rngAnswer 0 true 2])).map (fun t => t.phase) = some .run := by decide

/-- Each disjunct, at the edges of its range. -/
theorem witness_BadBusAccessChangesNothing :
    (2 ≠ 4 ∨ 0x100 % 4 ≠ 0) ∧ (0x102 % 4 ≠ 0) ∧ (0x014 ≤ 0x014 ∧ 0x0FC ≤ 0x0FF) ∧
      0x100 + 8 * stride (machine 0 0 0 0).limbs ≤ 0x140 ∧
      (expecting [.read 0x140 4]).inbox = .read 0x140 4 :: [] ∧
      (expecting [.write 0x014 4 1#32]).inbox = .write 0x014 4 1#32 :: [] := by decide

/-- The first and the last limb of the window, and the edges of the unmapped ranges. -/
theorem witness_RegisterMapIsExact :
    busTarget 2 0x100 4 = some (.limb 0 0) ∧ busTarget 2 0x13C 4 = some (.limb 7 1) ∧ 1 < 2 ∧
      0x100 + 8 * stride 2 ≤ 0x140 ∧ 0x014 ≤ 0x0FF := by decide

theorem witness_ControlRegistersReadTheirFields : State.reset.limbs ≤ Config.maxLimbs := by decide

theorem witness_ReadOnlyWritesAreIgnored :
    (expecting [.write 0x000 4 1#32]).inbox = .write 0x000 4 1#32 :: [] ∧
      (expecting [.write 0x004 4 1#32]).inbox = .write 0x004 4 1#32 :: [] := by decide

theorem witness_StatusWriteOneToClear :
    (waiting [.write 0x00C 4 0x16#32]).inbox = .write 0x00C 4 0x16#32 :: [] := by decide

theorem witness_ControlWriteSetsEnables :
    (0x7FFFFFFF#32 : Word).getLsbD 31 = false ∧
      (waiting [.write 0x008 4 0x7FFFFFFF#32]).inbox = .write 0x008 4 0x7FFFFFFF#32 :: [] := by decide

theorem witness_LimbWriteChangesThatLimbOnly :
    (expecting [.write 0x13C 4 9#32]).phase = .idle ∧
      busTarget (expecting [.write 0x13C 4 9#32]).limbs 0x13C 4 = some (.limb 7 1) ∧
      (expecting [.write 0x13C 4 9#32]).inbox = .write 0x13C 4 9#32 :: [] := by decide

theorem witness_RegisterIsSumOfLimbs : 2 ^ 64 - 1 < 2 ^ (32 * 2) := by decide

theorem witness_LoadDirectiveSetsRegister :
    (expecting []).phase = .idle ∧ 2 ^ 64 - 1 < 2 ^ (expecting []).width ∧
      (expecting []).reg 3 < 2 ^ (expecting []).width := by decide

/-- The four clauses. -/
theorem witness_WrittenCommandComputesFromItsRegisters :
    (expecting [.write 0x010 4 (encode (.gcd 2 0 1)), .engine]).phase = .idle ∧
      (expecting [.write 0x010 4 (encode (.gcd 2 0 1)), .engine]).rng = .idle ∧
      (expecting [.write 0x010 4 (encode (.gcd 2 0 1)), .engine]).inbox =
        .write 0x010 4 (encode (.gcd 2 0 1)) :: .engine :: [] ∧
      (expecting [.write 0x010 4 (encode (.modmul 4 0 1 2)), .engine]).reg 2 ≠ 0 ∧
      (expecting [.write 0x010 4 (encode (.modpow 4 0 1 2)), .engine]).reg 2 ≠ 0 ∧
      (expecting [.write 0x010 4 (encode (.encrypt 4 2 1 0)), .engine]).reg 0 ≤
        (expecting [.write 0x010 4 (encode (.encrypt 4 2 1 0)), .engine]).reg 2 := by decide

/-- Both causes of reset, while busy. -/
theorem witness_ResetSetsEveryPieceOfState :
    (waiting [.hardReset]).inbox = .hardReset :: [] ∧ (0x80000003#32 : Word).getLsbD 31 = true ∧
      (waiting [.write 0x008 4 0x80000003#32]).inbox = .write 0x008 4 0x80000003#32 :: [] := by decide

theorem witness_resets : (waiting [.hardReset]).resets ∧ (waiting [.write 0x008 4 0x80000000#32]).resets :=
  ⟨⟨[], .inl rfl⟩, ⟨[], .inr ⟨_, by decide, rfl⟩⟩⟩

/-- A request made, an answer under another number, an answer with no request out; the reset is `witness_resets`. -/
theorem witness_LateAnswersAreIgnored :
    (after (running 0x070A0002#32 0 0 561 [])).map (fun t => t.phase) = some .waitRng ∧
      (waiting [.rngAnswer 1 true 2]).phase = .waitRng ∧ 1 ≠ (waiting [.rngAnswer 1 true 2]).rngSeq ∧
      (waiting [.rngAnswer 1 true 2]).inbox = .rngAnswer 1 true 2 :: [] ∧
      (expecting [.rngAnswer 0 true 2]).phase ≠ .waitRng := by decide

/-- A step of each kind of transition. -/
theorem witness_PhaseTransitionsAreTheListedOnes :
    (after (expecting [.write 0x010 4 0#32])).map (fun t => t.phase) = some .run ∧
      (after (running 0x070A0002#32 0 0 561 [])).map (fun t => t.phase) = some .waitRng ∧
      (after (waiting [.rngAnswer 0 true 2])).map (fun t => t.phase) = some .run ∧
      (after (running 0x01000408#32 60 52 0 [])).map (fun t => t.phase) = some .idle ∧
      (after (waiting [.hardReset])).map (fun t => t.phase) = some .idle := by decide

/-- The clauses of the wait: an answer ends it, nothing does with an empty inbox, and `GCD` completes. -/
theorem witness_WaitsUntilAnsweredOrReset :
    (waiting [.rngAnswer 0 true 2]).phase = .waitRng ∧
      (after (waiting [.rngAnswer 0 true 2])).map (fun t => t.phase) = some .run ∧
      (waiting []).phase = .waitRng ∧ (waiting []).inbox = [] ∧
      (after (running 0x01000408#32 60 52 0 [])).isSome = true := by decide

/-- A waiting test meets the invariant, and an answer makes it step. -/
theorem witness_EveryStepKeepsTheInvariant :
    Inv (waiting [.rngAnswer 0 true 2]) ∧ (after (waiting [.rngAnswer 0 true 2])).isSome = true := by
  refine ⟨?_, by decide⟩
  constructor
  · decide
  · decide
  · decide
  · constructor <;> decide
  · decide
  · decide
  · decide
  · decide
  · exact fun _ => ⟨by decide, ⟨⟨2, 10, by decide, by decide⟩, by decide, by decide, by decide, by decide⟩⟩
  · intro h
    exact absurd h (by decide)

/-- `LCM`: a multiple that fits `W = 64`, and one that does not. -/
theorem witness_LcmCommand :
    Nat.lcm (running 0x02000408#32 60 52 0 []).work.sa (running 0x02000408#32 60 52 0 []).work.sb <
        2 ^ (running 0x02000408#32 60 52 0 []).width ∧
      2 ^ (running 0x02000408#32 (2 ^ 63) (2 ^ 63 - 1) 0 []).width ≤
        Nat.lcm (running 0x02000408#32 (2 ^ 63) (2 ^ 63 - 1) 0 []).work.sa
          (running 0x02000408#32 (2 ^ 63) (2 ^ 63 - 1) 0 []).work.sb := by decide

theorem witness_GcdCommand : (after (running 0x01000408#32 60 52 0 [])).map (fun t => t.reg 2) = some 4 := by decide

/-- `MODMUL` and `MODPOW`: modulus 0 and modulus 1. -/
theorem witness_ModmulCommand_ModpowCommand :
    (running 0x0300060A#32 7 8 0 []).work.sm = 0 ∧ (running 0x0400060A#32 7 8 1 []).work.sm ≠ 0 := by decide

/-- `ENCRYPT`: `SA = SM` and `SA = SM - 1`. -/
theorem witness_EncryptCommand :
    (running 0x05000A19#32 3233 17 3233 []).work.sm ≤ (running 0x05000A19#32 3233 17 3233 []).work.sa ∧
      (running 0x05000A19#32 3232 17 3233 []).work.sa < (running 0x05000A19#32 3232 17 3233 []).work.sm := by decide

/-- `MODINV`: modulus 0, 1, the least non-coprime pair and the least coprime pair. -/
theorem witness_ModinvCommand :
    (running 0x060008C2#32 5 0 0 []).work.sm = 0 ∧ (running 0x060008C2#32 5 0 1 []).work.sm = 1 ∧
      (2 ≤ (running 0x060008C2#32 0 0 2 []).work.sm ∧ Nat.gcd 0 2 ≠ 1) ∧
      (2 ≤ (running 0x060008C2#32 1 0 2 []).work.sm ∧ Nat.gcd 1 2 = 1) := by decide

/-- The clauses of the first event at their boundary candidates 1, 2, 3, 4 and 5, and what the engine answers. -/
theorem witness_MrtestFirstEvent :
    (∀ ok v, (running 0x07000002#32 0 0 5 []).rng ≠ .answered ok v) ∧
      (after (running 0x070A0002#32 0 0 1 [])).map (fun t => t.statusWord) = some 0x2#32 ∧
      (after (running 0x070A0002#32 0 0 2 [])).map (fun t => t.statusWord) = some 0xA#32 ∧
      (after (running 0x070A0002#32 0 0 3 [])).map (fun t => t.statusWord) = some 0xA#32 ∧
      (after (running 0x070A0002#32 0 0 4 [])).map (fun t => t.statusWord) = some 0x2#32 ∧
      (after (running 0x07000002#32 0 0 5 [])).map (fun t => t.statusWord) = some 0xA#32 ∧
      (after (running 0x07010002#32 0 0 5 [])).map (fun t => t.rng) = some (.requested 2 3) :=
  ⟨fun _ _ => by simp [running, machine, State.reset], by decide⟩

/-- A round of 5 with each kind of answer: too small, too large, the two ends of the range; 9 has a witness that shows it
composite. -/
theorem witness_MrtestRoundEvent :
    ((midTest 5 1 2 2 0).rng = .answered true 2 ∧ 5 ≤ (midTest 5 1 2 2 0).work.sm ∧
      (midTest 5 1 2 2 0).work.sm % 2 = 1 ∧
      (midTest 5 1 2 2 0).work.d * 2 ^ (midTest 5 1 2 2 0).work.s = (midTest 5 1 2 2 0).work.sm - 1 ∧
      (midTest 5 1 2 2 0).work.d % 2 = 1) ∧
      (after (midTest 5 1 2 1 0)).map (fun t => t.statusWord) = some 0x1206#32 ∧
      (after (midTest 5 1 2 2 0)).map (fun t => t.statusWord) = some 0xA#32 ∧
      (after (midTest 5 1 2 3 1)).map (fun t => t.rng) = some (.requested 2 3) ∧
      (after (midTest 5 1 2 4 0)).map (fun t => t.statusWord) = some 0x1206#32 ∧
      (after (midTest 9 1 3 2 0)).map (fun t => t.statusWord) = some 0x2#32 := by decide

theorem witness_MrtestRunMatchesWholeCommand :
    JustAccepted (running 0x070A0002#32 0 0 561 []) (.mrtest 2 10) ∧
      ∀ a ∈ [Answer.mk true 2], a.v < 2 ^ (running 0x070A0002#32 0 0 561 []).width :=
  ⟨⟨by decide, by decide, by decide⟩, by decide⟩

theorem witness_VerdictIsWhetherEveryWitnessPasses :
    5 ≤ 561 ∧ 561 % 2 = 1 ∧ (∀ a ∈ [Answer.mk true 50, Answer.mk true 2], ContractAnswer 561 a) ∧
      2 ≤ [Answer.mk true 50, Answer.mk true 2].length :=
  ⟨by decide, by decide, by simp [ContractAnswer], by decide⟩

theorem witness_PrimesAreNeverRejected :
    Nat.Prime 97 ∧ (∀ a ∈ [Answer.mk true 2, Answer.mk true 95], ContractAnswer 97 a) ∧
      2 ≤ [Answer.mk true 2, Answer.mk true 95].length :=
  ⟨by norm_num, by simp [ContractAnswer], by decide⟩

/-- The primes, exponents and plaintext of 95_test_vectors section 1.1. -/
theorem witness_DecryptionUndoesEncryption :
    Nat.Prime 61 ∧ Nat.Prime 53 ∧ 61 ≠ 53 ∧ 17 * 413 % Nat.lcm (61 - 1) (53 - 1) = 1 ∧
      (running 0x05000A19#32 65 17 3233 []).work.sb = 17 ∧
      (running 0x05000A19#32 65 17 3233 []).work.sm = 61 * 53 ∧ 65 < 61 * 53 ∧
      (running 0x0400060A#32 2790 413 3233 []).work.sa = 2790 ∧
      (after (running 0x05000A19#32 65 17 3233 [])).map (fun t => t.reg 5) = some 2790 :=
  ⟨by norm_num, by norm_num, by decide⟩

theorem witness_ReferenceMultiplierComputesModMul : 1 ≤ 1 ∧ 255 < 2 ^ 8 := by decide

theorem witness_ReferenceDividerDivides : 1 ≤ 1 := by decide

theorem witness_CoefficientChainStaysInBounds : 1 ≤ 780 := by decide

/-- An `ENCRYPT` that fails. -/
theorem witness_ErrorsArePrecise :
    (running 0x05000A19#32 3233 17 3233 []).status.err = false ∧
      (after (running 0x05000A19#32 3233 17 3233 [])).map (fun t => t.status.err) = some true := by decide

/-- A successful test sets `PP`. -/
theorem witness_OnlyMrtestAndResetChangePp :
    (midTest 561 35 4 50 0).status.pp = false ∧
      (after (midTest 561 35 4 50 0)).map (fun t => t.status.pp) = some true := by decide

/-- Each writer: reset, a limb write, a command. -/
theorem witness_RegisterWritersAreTheListedOnes :
    (after (waiting [.hardReset])).map (fun t => t.reg 2) = some 0 ∧
      (after (expecting [.write 0x100 4 1#32])).map (fun t => t.reg 0) = some 1 ∧
      (after (running 0x01000408#32 60 52 0 [])).map (fun t => t.reg 2) = some 4 := by decide

/-- Two states with one latch and different registers. -/
theorem witness_CommandsSeeOnlyTheLatch :
    (running 0x01000408#32 60 52 0 []).work =
        ({ running 0x01000408#32 60 52 0 [] with regs := #v[9, 9, 9, 9, 9, 9, 9, 9] } : State).work ∧
      (after (running 0x01000408#32 60 52 0 [])).isSome = true ∧
      (after { running 0x01000408#32 60 52 0 [] with regs := #v[9, 9, 9, 9, 9, 9, 9, 9] }).isSome = true := by decide

/-- A byte of `x[0]`, seen before and after a `GCD` into `x[2]`. -/
theorem witness_CompletionChangesOnlyStatusAndDestination :
    (after (running 0x01000408#32 60 52 0 [])).map (fun t => t.phase) = some .idle ∧ 0x101 - 0x101 % 4 ≠ 0x00C ∧
      destination (.gcd 2 0 1) = some 2 ∧ busTarget 2 (0x101 - 0x101 % 4) 4 = some (.limb 0 0) := by decide

/-- `CMDERR` set by a dropped write, cleared by the host. -/
theorem witness_CommandErrorFlagIsSticky :
    (after (waiting [.write 0x010 4 0#32])).map (fun t => t.status.cmderr) = some true ∧
      (after ((waiting [.write 0x00C 4 0x10#32]).dropWrite)).map (fun t => t.status.cmderr) = some false := by decide

theorem witness_InterruptFollowsCompletionAndClearing :
    (after (running 0x01000408#32 60 52 0 [])).map (fun t => t.phase) = some .idle ∧
      (6#32 : Word).getLsbD 1 = true ∧ (6#32 : Word).getLsbD 2 = true ∧
      (expecting [.write 0x00C 4 6#32]).inbox = .write 0x00C 4 6#32 :: [] := by decide

/-- R221: a 1-bit prime, and one wider than the engine, are not searched for (the two ends of the range; log entry 13). -/
theorem witness_GeneratedPrimesHaveTheShape_outside :
    ¬ (2 ≤ 1 ∧ 1 ≤ 64) ∧ ¬ (2 ≤ 65 ∧ 65 ≤ 64) ∧
      (match Driver.generatePrime 64 1 1 [0] [], Driver.generatePrime 64 65 1 [0] [] with
      | .error e, .error e' => decide (e = .bitLengthOutOfRange ∧ e' = .bitLengthOutOfRange)
      | _, _ => false) = true := by decide

/-- R225: two 33-bit primes do not make a key on a 64-bit engine (log entry 13). -/
theorem test_keypair_needs_room_for_the_product :
    (match Driver.deriveKeys 64 33 5 7 with
      | .error e => decide (e = .bitLengthOutOfRange)
      | .ok _ => false) = true := by decide

/-- A 3-bit candidate that is prime. -/
theorem witness_GeneratedPrimesHaveTheShape :
    (match Driver.generatePrime 64 3 1 [0] (List.replicate 10 ⟨true, 2⟩) with
      | .ok (c, _, _) => decide (c = 5)
      | .error _ => false) = true := by decide

theorem witness_KeyMaterialIsConsistent :
    (match Driver.generateKeypair 64 3 1 1 [0, 1] (List.replicate 20 ⟨true, 2⟩) with
      | .ok key => decide (key.primeA = 5 ∧ key.primeB = 7)
      | .error _ => false) = true := by decide

end Sys2Proof.Tests
end

/-! # What a step can do: one event of the total order (spec/20_memory.md R81), said once -/

namespace Sys2Proof.Machine

/-! ### An event taken off the inbox -/

/-- `s` once an event is taken off its inbox: `rest` is still to come and `b` is the host's latest answer. Every event acts
on such a state. -/
def State.taken (s : State) (rest : List Input) (b : BusResp) : State := { s with inbox := rest, busResp := b }

section
variable (s : State) (rest : List Input) (b : BusResp)

@[simp] theorem State.taken_regs : (s.taken rest b).regs = s.regs := rfl
@[simp] theorem State.taken_phase : (s.taken rest b).phase = s.phase := rfl
@[simp] theorem State.taken_ctrl : (s.taken rest b).ctrl = s.ctrl := rfl
@[simp] theorem State.taken_status : (s.taken rest b).status = s.status := rfl
@[simp] theorem State.taken_work : (s.taken rest b).work = s.work := rfl
@[simp] theorem State.taken_rng : (s.taken rest b).rng = s.rng := rfl
@[simp] theorem State.taken_limbs : (s.taken rest b).limbs = s.limbs := rfl
@[simp] theorem State.taken_inbox : (s.taken rest b).inbox = rest := rfl
@[simp] theorem State.taken_busResp : (s.taken rest b).busResp = b := rfl
@[simp] theorem State.taken_rngSeq : (s.taken rest b).rngSeq = s.rngSeq := rfl
@[simp] theorem State.taken_freeCtr : (s.taken rest b).freeCtr = s.freeCtr := rfl
@[simp] theorem State.taken_reg (r : Reg) : (s.taken rest b).reg r = s.reg r := rfl
@[simp] theorem State.taken_width : (s.taken rest b).width = s.width := rfl

end

/-! ### The engine's turn -/

/-- In `RUN` the engine's turn is the event of the command in `IR` (10_state R35). -/
theorem State.engineTurn_of_command {s : State} {i : Instr} (hrun : s.phase = .run) (hi : decode s.work.ir = .ok i) :
    s.engineTurn = exec i s := by
  simp [State.engineTurn, State.currentCommand, hrun, hi]

/-! ### Bus writes (20_memory R74, R77, R79) -/

/-- The host's answer and the effect of a write do not interfere. -/
theorem State.writeTarget_respond (s : State) (target : Target) (v : Word) (b : BusResp) :
    (s.writeTarget target v).respond b = (s.respond b).writeTarget target v := by
  cases target with
  | id => rfl
  | cfg => rfl
  | ctrl => exact apply_ite (State.respond · b) _ _ _
  | status => rfl
  | cmd => exact apply_ite (State.respond · b) _ _ _
  | limb r k => exact apply_ite (State.respond · b) _ _ _

theorem State.writeTarget_ctrl_of_not_reset (s : State) {v : Word} (hv : v.getLsbD 31 = false) :
    s.writeTarget .ctrl v = { s with ctrl := Ctrl.written v } := by
  simp only [State.writeTarget, hv, Bool.false_eq_true, if_false]

theorem State.writeTarget_ctrl_of_reset (s : State) {v : Word} (hv : v.getLsbD 31 = true) :
    s.writeTarget .ctrl v = s.engineReset := by
  simp only [State.writeTarget, hv, if_true]

theorem State.busy_eq_false {s : State} (h : s.phase = .idle) : s.busy = false := by simp [State.busy, h]

theorem State.busy_eq_true {s : State} (h : s.phase ≠ .idle) : s.busy = true := by simp [State.busy, h]

theorem State.writeTarget_cmd_of_idle {s : State} (h : s.phase = .idle) (v : Word) :
    s.writeTarget .cmd v = s.accept v := by
  simp [State.writeTarget, State.busy_eq_false h]

theorem State.writeTarget_cmd_of_busy {s : State} (h : s.phase ≠ .idle) (v : Word) :
    s.writeTarget .cmd v = s.dropWrite := by
  simp [State.writeTarget, State.busy_eq_true h]

theorem State.writeTarget_limb_of_idle {s : State} (h : s.phase = .idle) (r : Reg) (k : Nat) (v : Word) :
    s.writeTarget (.limb r k) v = s.writeReg r (setLimb (s.reg r) k v) := by
  simp [State.writeTarget, State.busy_eq_false h]

theorem State.writeTarget_limb_of_busy {s : State} (h : s.phase ≠ .idle) (r : Reg) (k : Nat) (v : Word) :
    s.writeTarget (.limb r k) v = s.dropWrite := by
  simp [State.writeTarget, State.busy_eq_true h]

/-- A bus write to a mapped offset. -/
theorem step_write_mapped {s : State} {addr width : Nat} {v : Word} {rest : List Input} {target : Target}
    (h : s.inbox = .write addr width v :: rest) (ht : busTarget s.limbs addr width = some target) :
    step s = .next ((s.taken rest .ok).writeTarget target v) := by
  rw [step_event h]
  simp only [State.perform, State.hostWrite, ht, State.writeTarget_respond]
  rfl

/-- A bus write that reaches nothing changes nothing (R73). -/
theorem step_write_unmapped {s : State} {addr width : Nat} {v : Word} {rest : List Input}
    (h : s.inbox = .write addr width v :: rest) (ht : busTarget s.limbs addr width = none) :
    step s = .next (s.taken rest .error) := by
  rw [step_event h]
  simp only [State.perform, State.hostWrite, ht]
  rfl

/-- A bus read changes nothing but the host's answer (R77). -/
theorem step_read {s : State} {addr width : Nat} {rest : List Input} (h : s.inbox = .read addr width :: rest) :
    ∃ b, step s = .next (s.taken rest b) := by
  rw [step_event h]
  simp only [State.perform, State.hostRead]
  split
  · exact ⟨_, rfl⟩
  · exact ⟨_, rfl⟩

/-! ### The one inversion lemma of `step` -/

/-- Everything one step from `s` can leave, each with the event that does it. -/
inductive StepEvent (s : State) : State → Prop where
  /-- A read, a write without effect, an answer to no outstanding request, or the turn of an engine that is not in `RUN`. -/
  | quiet (rest : List Input) (b : BusResp) : StepEvent s (s.taken rest b)
  /-- The running command's next event. -/
  | command {t : State} (i : Instr) (rest : List Input) (hrun : s.phase = .run) (hmoves : s.engineMoves)
      (hi : decode s.work.ir = .ok i) (h : exec i (s.taken rest s.busResp) = .next t) : StepEvent s t
  /-- The completion of an illegal word (60_exceptions R247). -/
  | illegal (why : DecodeError) (rest : List Input) (hrun : s.phase = .run) (hmoves : s.engineMoves)
      (hi : decode s.work.ir = .illegal why) : StepEvent s ((s.taken rest s.busResp).raise .illegalCommand)
  | reset (rest : List Input) (b : BusResp) (h : s.resets) : StepEvent s (s.taken rest b).engineReset
  | enables (v : Word) (rest : List Input) (hv : v.getLsbD 31 = false) (h : s.inbox = .write 0x008 4 v :: rest) :
      StepEvent s { s.taken rest .ok with ctrl := Ctrl.written v }
  | statusWrite (v : Word) (rest : List Input) (h : s.inbox = .write 0x00C 4 v :: rest) :
      StepEvent s { s.taken rest .ok with status := s.status.written v }
  | acceptance (c : Word) (rest : List Input) (hidle : s.phase = .idle) (h : s.inbox = .write 0x010 4 c :: rest) :
      StepEvent s ((s.taken rest .ok).accept c)
  | limbWrite (addr : Nat) (v : Word) (rest : List Input) (r : Reg) (k : Nat) (hidle : s.phase = .idle)
      (ht : busTarget s.limbs addr 4 = some (.limb r k)) (h : s.inbox = .write addr 4 v :: rest) :
      StepEvent s ((s.taken rest .ok).writeReg r (setLimb (s.reg r) k v))
  | dropped (addr : Nat) (v : Word) (rest : List Input) (hbusy : s.phase ≠ .idle)
      (h : s.inbox = .write addr 4 v :: rest) : StepEvent s (s.taken rest .ok).dropWrite
  /-- The outstanding request's answer (10_state R52). -/
  | answer (ok : Bool) (v : Nat) (rest : List Input) (hwaits : s.phase = .waitRng)
      (h : s.inbox = .rngAnswer s.rngSeq ok v :: rest) :
      StepEvent s { s.taken rest s.busResp with phase := .run, rng := .answered ok (v % 2 ^ s.width) }

/-- The engine's turn, as a step's event. -/
theorem stepEvent_of_engineTurn {s t : State} {rest : List Input} (hmoves : s.engineMoves)
    (h : (s.taken rest s.busResp).engineTurn = .next t) : StepEvent s t := by
  rcases State.engineTurn_cases (s.taken rest s.busResp) with ⟨-, e⟩ | ⟨hrun, i, hi, e⟩ | ⟨hrun, why, hi, e⟩
  · rw [e] at h
    cases h
    exact .quiet _ _
  · rw [e] at h
    exact .command i rest hrun hmoves hi h
  · rw [e] at h
    cases h
    exact .illegal why rest hrun hmoves hi

/-- A write to a mapped offset, as a step's event. -/
theorem stepEvent_of_writeTarget {s : State} {addr width : Nat} {v : Word} {rest : List Input} {target : Target}
    (h : s.inbox = .write addr width v :: rest) (ht : busTarget s.limbs addr width = some target) :
    StepEvent s ((s.taken rest .ok).writeTarget target v) := by
  obtain ⟨rfl, hoffset⟩ := busTarget_offset ht
  cases target with
  | id => exact .quiet _ _
  | cfg => exact .quiet _ _
  | ctrl =>
    cases hoffset _ rfl
    cases hv : v.getLsbD 31 with
    | false =>
      rw [State.writeTarget_ctrl_of_not_reset _ hv]
      exact .enables v rest hv h
    | true =>
      rw [State.writeTarget_ctrl_of_reset _ hv]
      exact .reset rest .ok ⟨rest, .inr ⟨v, hv, h⟩⟩
  | status =>
    cases hoffset _ rfl
    exact .statusWrite v rest h
  | cmd =>
    cases hoffset _ rfl
    by_cases hidle : s.phase = .idle
    · rw [State.writeTarget_cmd_of_idle (by exact hidle)]
      exact .acceptance v rest hidle h
    · rw [State.writeTarget_cmd_of_busy (by exact hidle)]
      exact .dropped _ v rest hidle h
  | limb r k =>
    by_cases hidle : s.phase = .idle
    · rw [State.writeTarget_limb_of_idle (by exact hidle)]
      exact .limbWrite addr v rest r k hidle ht h
    · rw [State.writeTarget_limb_of_busy (by exact hidle)]
      exact .dropped _ v rest hidle h

/-- What a step can do. -/
theorem step_cases {s t : State} (h : step s = .next t) : StepEvent s t := by
  cases hin : s.inbox with
  | nil => exact stepEvent_of_engineTurn (rest := s.inbox) (.inl hin) (step_idle_inbox hin ▸ h)
  | cons e rest =>
    cases e with
    | engine => exact stepEvent_of_engineTurn (.inr ⟨rest, hin⟩) (step_event hin ▸ h)
    | read addr width =>
      obtain ⟨b, hb⟩ := step_read hin
      rw [hb] at h
      cases h
      exact .quiet _ _
    | write addr width v =>
      cases ht : busTarget s.limbs addr width with
      | none =>
        rw [step_write_unmapped hin ht] at h
        cases h
        exact .quiet _ _
      | some target =>
        rw [step_write_mapped hin ht] at h
        cases h
        exact stepEvent_of_writeTarget hin ht
    | rngAnswer req ok v =>
      rw [step_event hin] at h
      simp only [State.perform, State.deliverAnswer] at h
      split at h
      · rename_i hreq
        cases h
        obtain ⟨hwaits, rfl⟩ := hreq
        exact .answer ok v rest hwaits hin
      · cases h
        exact .quiet rest s.busResp
    | hardReset =>
      rw [step_event hin] at h
      cases h
      exact .reset rest s.busResp ⟨rest, .inl hin⟩

end Sys2Proof.Machine

/-! # Every step keeps the invariant (spec/10_state.md R30, R35, R43, R46, R48, R52) -/

namespace Sys2Proof.Machine

/-! ### The flags' part of the invariant, through each update of `STATUS` -/

/-- What `Inv` asks of `STATUS` in phase `p`. -/
structure StatusFits (p : Phase) (st : Status) : Prop where
  noErrorNoCode : st.err = false → st.errcode = 0
  errorCode : st.err = true → st.errcode ∈ engineCodes
  busyFlagsClear : p ≠ .idle → st.done = false ∧ st.err = false

theorem Inv.statusFits {s : State} (h : Inv s) : StatusFits s.phase s.status :=
  ⟨h.noErrorNoCode, h.errorCode, h.busyFlagsClear⟩

theorem StatusFits.idle {p : Phase} {st : Status} (h : StatusFits p st) : StatusFits .idle st :=
  ⟨h.noErrorNoCode, h.errorCode, fun hp => absurd rfl hp⟩

theorem StatusFits.written {p : Phase} {st : Status} (h : StatusFits p st) (v : Word) : StatusFits p (st.written v) where
  noErrorNoCode he := by
    cases hv : v.getLsbD 2 with
    | true => simp only [Status.written_errcode, hv, if_true]
    | false =>
      simp only [Status.written_err, hv, Bool.not_false, Bool.and_true] at he
      simpa only [Status.written_errcode, hv, Bool.false_eq_true, if_false] using h.noErrorNoCode he
  errorCode he := by
    simp only [Status.written_err, Bool.and_eq_true, Bool.not_eq_true'] at he
    simpa only [Status.written_errcode, he.2, Bool.false_eq_true, if_false] using h.errorCode he.1
  busyFlagsClear hp := by simp [h.busyFlagsClear hp]

theorem StatusFits.cmderrSet {p : Phase} {st : Status} (h : StatusFits p st) : StatusFits p { st with cmderr := true } :=
  ⟨h.noErrorNoCode, h.errorCode, h.busyFlagsClear⟩

theorem StatusFits.accepted (p : Phase) (st : Status) : StatusFits p st.accepted where
  noErrorNoCode _ := rfl
  errorCode he := nomatch he
  busyFlagsClear _ := ⟨rfl, rfl⟩

theorem StatusFits.succeeded {p : Phase} {st : Status} (h : StatusFits p st) : StatusFits .idle st.succeeded :=
  ⟨h.noErrorNoCode, h.errorCode, fun hp => absurd rfl hp⟩

theorem StatusFits.verdict {p : Phase} {st : Status} (h : StatusFits p st) (b : Bool) :
    StatusFits .idle { st.succeeded with pp := b } :=
  ⟨h.noErrorNoCode, h.errorCode, fun hp => absurd rfl hp⟩

theorem StatusFits.failed (st : Status) {e : ErrKind} (he : e.code ∈ engineCodes) : StatusFits .idle (st.failed e) where
  noErrorNoCode h := nomatch h
  errorCode _ := he
  busyFlagsClear hp := absurd rfl hp

theorem StatusFits.reset :
    StatusFits .idle { done := false, err := false, pp := false, cmderr := false, errcode := 0 } where
  noErrorNoCode _ := rfl
  errorCode h := nomatch h
  busyFlagsClear hp := absurd rfl hp

/-! ### Events that leave the phase, the port and the working registers, and events that end in `IDLE` -/

/-- What holds within a test is a matter of the working registers. -/
theorem MidTest.of_work {s t : State} (h : MidTest s) (hw : t.work = s.work) : MidTest t := by
  obtain ⟨hcommand, hlarge, hodd, hsplit, hoddPart⟩ := h
  constructor <;> rwa [hw]

/-- The invariant sees nothing of `CTRL`, the inbox, the host's answer and the counters. -/
theorem Inv.of_same_engine {s t : State} (h : Inv s) (hl : t.limbs = s.limbs) (hr : t.regs = s.regs)
    (hp : t.phase = s.phase) (hg : t.rng = s.rng) (hw : t.work = s.work) (hst : StatusFits s.phase t.status) : Inv t where
  limbsMin := hl ▸ h.limbsMin
  limbsMax := hl ▸ h.limbsMax
  regsFit r := by simpa only [State.reg, State.width, hl, hr] using h.regsFit r
  workFits := by simpa only [State.width, hl, hw] using h.workFits
  noErrorNoCode := hst.noErrorNoCode
  errorCode := hst.errorCode
  busyFlagsClear hbusy := hst.busyFlagsClear (hp ▸ hbusy)
  idlePort hidle := hg.trans (h.idlePort (hp ▸ hidle))
  waitPort hwaits := by
    obtain ⟨hport, hmid⟩ := h.waitPort (hp ▸ hwaits)
    exact ⟨by rw [hg, hport, hw], hmid.of_work hw⟩
  runPort hrun := by
    rcases h.runPort (hp ▸ hrun) with hport | ⟨ok, v, hport, hv, hmid⟩
    · exact .inl (hg.trans hport)
    · exact .inr ⟨ok, v, hg.trans hport, by simpa only [State.width, hl] using hv, hmid.of_work hw⟩

theorem Inv.taken {s : State} (h : Inv s) (rest : List Input) (b : BusResp) : Inv (s.taken rest b) :=
  h.of_same_engine rfl rfl rfl rfl rfl h.statusFits

/-- An idle engine has only widths and flags to keep. -/
theorem Inv.of_idle {s t : State} (h : Inv s) (hl : t.limbs = s.limbs) (hregs : ∀ r, t.reg r < 2 ^ s.width)
    (hwork : t.work.Fits s.width) (hp : t.phase = .idle) (hg : t.rng = .idle) (hst : StatusFits .idle t.status) :
    Inv t where
  limbsMin := hl ▸ h.limbsMin
  limbsMax := hl ▸ h.limbsMax
  regsFit r := by simpa only [State.width, hl] using hregs r
  workFits := by simpa only [State.width, hl] using hwork
  noErrorNoCode := hst.noErrorNoCode
  errorCode := hst.errorCode
  busyFlagsClear hbusy := absurd hp hbusy
  idlePort _ := hg
  waitPort hwaits := nomatch hp.symm.trans hwaits
  runPort hrun := nomatch hp.symm.trans hrun

/-- A register written with a value of `W` bits. -/
theorem Inv.writeReg_fits {s : State} (h : Inv s) (rd : Reg) {v : Nat} (hv : v < 2 ^ s.width) (r : Reg) :
    (s.writeReg rd v).reg r < 2 ^ s.width := by
  by_cases hr : r = rd
  · rwa [hr, State.writeReg_reg_self]
  · rw [State.writeReg_reg_other _ _ hr]
    exact h.regsFit r

theorem Inv.completeReg {s : State} (h : Inv s) (rd : Reg) {v : Nat} (hv : v < 2 ^ s.width) : Inv (s.completeReg rd v) :=
  h.of_idle rfl (h.writeReg_fits rd hv) (Work.free_fits _ _) rfl rfl h.statusFits.succeeded

theorem Inv.completeVerdict {s : State} (h : Inv s) (b : Bool) : Inv (s.completeVerdict b) :=
  h.of_idle rfl h.regsFit (Work.free_fits _ _) rfl rfl (h.statusFits.verdict b)

theorem Inv.raise {s : State} (h : Inv s) {e : ErrKind} (he : e.code ∈ engineCodes) : Inv (s.raise e) :=
  h.of_idle rfl h.regsFit (Work.free_fits _ _) rfl rfl (.failed _ he)

theorem Work.zero_fits (w : Nat) : Work.zero.Fits w := by
  have hpos : ∀ n : Nat, (0 : Nat) < 2 ^ n := Nat.two_pow_pos
  have hint : -(2 : Int) ^ (w + 1) ≤ 0 ∧ (0 : Int) < 2 ^ (w + 1) := ⟨by simp, by positivity⟩
  constructor
  case t0 | t1 => exact hint
  all_goals exact hpos _

/-- Reset establishes the invariant at every admitted width (R55). -/
theorem State.engineReset_inv {s : State} (hmin : Config.minLimbs ≤ s.limbs) (hmax : s.limbs ≤ Config.maxLimbs) :
    Inv s.engineReset where
  limbsMin := hmin
  limbsMax := hmax
  regsFit r := by
    rw [State.engineReset_reg]
    exact Nat.two_pow_pos _
  workFits := Work.zero_fits _
  noErrorNoCode := StatusFits.reset.noErrorNoCode
  errorCode := StatusFits.reset.errorCode
  busyFlagsClear := StatusFits.reset.busyFlagsClear
  idlePort _ := rfl
  waitPort hwaits := nomatch hwaits
  runPort hrun := nomatch hrun

/-! ### Acceptance, a limb write, an answer -/

theorem Inv.accept {s : State} (h : Inv s) (hidle : s.phase = .idle) (c : Word) : Inv (s.accept c) where
  limbsMin := h.limbsMin
  limbsMax := h.limbsMax
  regsFit := h.regsFit
  workFits := { h.workFits with sa := h.regsFit _, sb := h.regsFit _, sm := h.regsFit _ }
  noErrorNoCode := (StatusFits.accepted .run _).noErrorNoCode
  errorCode := (StatusFits.accepted .run _).errorCode
  busyFlagsClear := (StatusFits.accepted .run _).busyFlagsClear
  idlePort hp := nomatch hp
  waitPort hp := nomatch hp
  runPort _ := .inl (h.idlePort hidle)

theorem Inv.writeLimb {s : State} (h : Inv s) (hidle : s.phase = .idle) (r : Reg) {k : Nat} (hk : k < s.limbs) (v : Word) :
    Inv (s.writeReg r (setLimb (s.reg r) k v)) :=
  h.of_idle rfl (h.writeReg_fits r (setLimb_lt _ _ _ _ hk (h.regsFit r))) h.workFits hidle (h.idlePort hidle)
    h.statusFits.idle

theorem Inv.answered {s : State} (h : Inv s) (hwaits : s.phase = .waitRng) (ok : Bool) (v : Nat) :
    Inv { s with phase := .run, rng := .answered ok (v % 2 ^ s.width) } where
  limbsMin := h.limbsMin
  limbsMax := h.limbsMax
  regsFit := h.regsFit
  workFits := h.workFits
  noErrorNoCode := h.noErrorNoCode
  errorCode := h.errorCode
  busyFlagsClear _ := h.busyFlagsClear (by simp [hwaits])
  idlePort hp := nomatch hp
  waitPort hp := nomatch hp
  runPort _ := .inr ⟨ok, _, rfl, Nat.mod_lt _ (Nat.two_pow_pos _), (h.waitPort hwaits).2.of_work rfl⟩

/-! ### Results fit their registers -/

theorem gcd_lt {a b n : Nat} (ha : a < n) (hb : b < n) : gcd a b < n := by
  rw [gcd_eq]
  rcases Nat.eq_zero_or_pos a with rfl | hpos
  · rwa [Nat.gcd_zero_left]
  · exact (Nat.gcd_le_left b hpos).trans_lt ha

theorem modInv_lt {a m v : Nat} (hm : m ≠ 0) (h : modInv a m = some v) : v < m := by
  by_cases hone : m = 1
  · subst hone
    rw [modInv_one] at h
    cases h
    exact Nat.one_pos
  · by_cases hg : Nat.gcd a m = 1
    · obtain ⟨x, hx, hlt, -⟩ := modInv_some (a := a) (show 2 ≤ m by omega) hg
      rw [hx] at h
      cases h
      exact hlt
    · rw [modInv_none (by omega) hg] at h
      cases h

/-! ### `MRTEST` from one event to the next (44_mrtest R200 to R206) -/

/-- What the pre-screen lets through (R201). -/
theorem preScreen_none {n : Nat} (h : preScreen n = none) : 5 ≤ n ∧ n % 2 = 1 := by
  unfold preScreen at h
  split_ifs at h
  omega

/-- `D` and `S` of a candidate of `w` bits fit their registers (10_state R48). -/
theorem decomposition_fits {w n d e : Nat} (hn : n < 2 ^ w) (hlarge : 5 ≤ n) (hsplit : d * 2 ^ e = n - 1)
    (hodd : d % 2 = 1) : d < 2 ^ w ∧ e < 2 ^ countWidth w := by
  have hd : d ≤ d * 2 ^ e := Nat.le_mul_of_pos_right d (Nat.two_pow_pos e)
  have he : 2 ^ e ≤ d * 2 ^ e := Nat.le_mul_of_pos_left _ (by omega)
  have hew : e < w := (Nat.pow_lt_pow_iff_right (by decide)).1 (show 2 ^ e < 2 ^ w by omega)
  have hw : w < 2 ^ (bitlen w + 1) := (bitlen_bound w).trans (Nat.pow_lt_pow_right (by decide) (Nat.lt_succ_self _))
  exact ⟨by omega, hew.trans hw⟩

section
variable {s : State} {rm : Reg} {rounds d e : Nat} (h : Inv s) (hrun : s.phase = .run)
  (hi : decode s.work.ir = .ok (.mrtest rm rounds)) (hlarge : 5 ≤ s.work.sm) (hsmOdd : s.work.sm % 2 = 1)
  (hsplit : d * 2 ^ e = s.work.sm - 1) (hodd : d % 2 = 1)
include h hrun hi hlarge hsmOdd hsplit hodd

theorem Inv.requestWitness {rnd : Nat} (hrnd : rnd < rounds) : Inv (s.requestWitness d e rnd) where
  limbsMin := h.limbsMin
  limbsMax := h.limbsMax
  regsFit := h.regsFit
  workFits := by
    obtain ⟨hd, he⟩ := decomposition_fits h.workFits.sm hlarge hsplit hodd
    exact { Work.free_fits s.width s.freeCtr with
      sa := h.workFits.sa, sb := h.workFits.sb, sm := h.workFits.sm, d := hd, s := he,
      rnd := hrnd.trans (decode_mrtest_rounds hi) }
  noErrorNoCode := h.noErrorNoCode
  errorCode := h.errorCode
  busyFlagsClear _ := h.busyFlagsClear (by simp [hrun])
  idlePort hp := nomatch hp
  waitPort _ := ⟨rfl, ⟨⟨rm, rounds, hi, hrnd⟩, hlarge, hsmOdd, hsplit, hodd⟩⟩
  runPort hp := nomatch hp

theorem Inv.nextRound {rnd : Nat} (hrnd : rnd ≤ rounds) : Inv (s.nextRound d e rnd) := by
  cases rnd with
  | zero => exact h.completeVerdict true
  | succ r => exact h.requestWitness hrun hi hlarge hsmOdd hsplit hodd hrnd

end

theorem Inv.startTest {s : State} (h : Inv s) (hrun : s.phase = .run) {rm : Reg} {rounds : Nat}
    (hi : decode s.work.ir = .ok (.mrtest rm rounds)) : Inv (s.startTest rounds) := by
  unfold State.startTest
  split
  · exact h.completeVerdict _
  · rename_i hscreen
    obtain ⟨hlarge, hsmOdd⟩ := preScreen_none hscreen
    exact h.nextRound hrun hi hlarge hsmOdd (decompose_split _) (decompose_odd _ (by omega)) le_rfl

theorem Inv.resumeTest {s : State} (h : Inv s) (hrun : s.phase = .run) (hmid : MidTest s) (ok : Bool) (a : Nat) :
    Inv (s.resumeTest ok a) := by
  obtain ⟨⟨rm, rounds, hi, hrnd⟩, hlarge, hsmOdd, hsplit, hodd⟩ := hmid
  unfold State.resumeTest
  split
  · exact h.raise (by decide)
  · split
    · exact h.nextRound hrun hi hlarge hsmOdd hsplit hodd hrnd.le
    · exact h.completeVerdict false

/-! ### One event of a command -/

/-- The running command's event keeps the invariant: its result fits the register, its error is one of the engine's. -/
theorem Inv.command {s t : State} {i : Instr} (h : Inv s) (hrun : s.phase = .run) (hi : decode s.work.ir = .ok i)
    (he : exec i s = .next t) : Inv t := by
  have hsm := h.workFits.sm
  cases i with
  | gcd rd ra rb =>
    cases he
    exact h.completeReg rd (gcd_lt h.workFits.sa h.workFits.sb)
  | lcm rd ra rb =>
    simp only [exec, execLcm] at he
    split at he <;> cases he
    · exact h.completeReg rd ((fitsWidth_iff _ _).1 ‹_›)
    · exact h.raise (by decide)
  | modmul rd ra rb rm =>
    simp only [exec, execModmul] at he
    split at he <;> cases he
    · exact h.raise (by decide)
    · exact h.completeReg rd ((modMul_lt _ _ _ (Nat.pos_of_ne_zero ‹_›)).trans hsm)
  | modpow rd ra rb rm =>
    simp only [exec, execModpow] at he
    split at he <;> cases he
    · exact h.raise (by decide)
    · exact h.completeReg rd ((modPow_lt _ _ _ (Nat.pos_of_ne_zero ‹_›)).trans hsm)
  | encrypt rd ra rb rm =>
    simp only [exec, execEncrypt] at he
    split at he <;> cases he
    · exact h.raise (by decide)
    · exact h.completeReg rd ((modPow_lt _ _ _ (by omega)).trans hsm)
  | modinv rd ra rm =>
    simp only [exec, execModinv] at he
    split at he
    · cases he
      exact h.raise (by decide)
    · split at he <;> cases he
      · exact h.raise (by decide)
      · exact h.completeReg rd ((modInv_lt ‹_› ‹_›).trans hsm)
  | mrtest rm rounds =>
    simp only [exec, execMrtest] at he
    split at he <;> cases he
    · rename_i ok a hport
      rcases h.runPort hrun with hnone | ⟨_, _, -, -, hmid⟩
      · exact nomatch hport.symm.trans hnone
      · exact h.resumeTest hrun hmid ok a
    · exact h.startTest hrun hi

/-! ### One step -/

/-- Every event keeps the invariant. -/
theorem Inv.stepEvent {s t : State} (h : Inv s) (he : StepEvent s t) : Inv t := by
  cases he with
  | quiet rest b => exact h.taken rest b
  | command i rest hrun _ hi he => exact (h.taken rest s.busResp).command hrun hi he
  | illegal why rest hrun _ hi => exact (h.taken rest s.busResp).raise (by decide)
  | reset rest b _ => exact State.engineReset_inv h.limbsMin h.limbsMax
  | enables v rest _ _ => exact h.of_same_engine rfl rfl rfl rfl rfl h.statusFits
  | statusWrite v rest _ => exact h.of_same_engine rfl rfl rfl rfl rfl (h.statusFits.written v)
  | acceptance c rest hidle _ => exact (h.taken rest .ok).accept hidle c
  | limbWrite addr v rest r k hidle ht _ => exact (h.taken rest .ok).writeLimb hidle r (busTarget_limb_lt ht) v
  | dropped addr v rest _ _ => exact h.of_same_engine rfl rfl rfl rfl rfl h.statusFits.cmderrSet
  | answer ok v rest hwaits _ => exact (h.taken rest s.busResp).answered hwaits ok v

/-- Settles O28: each event of a step keeps the invariant. -/
theorem everyStepKeepsTheInvariant : Obligations.EveryStepKeepsTheInvariant :=
  fun _ _ h hstep => h.stepEvent (step_cases hstep)

/-- Settles O27: reset establishes the invariant at the default width. -/
theorem invariantHoldsAtReset : Obligations.InvariantHoldsAtReset :=
  State.engineReset_inv (s := State.reset) (by decide) (by decide)

end Sys2Proof.Machine

/-! # What changes the phase, `PP` and the registers, and what a command sees (spec/10_state.md R31, R35, R37, R47) -/

namespace Sys2Proof.Machine

/-- A command's event completes it, or, for the one command without a destination, asks for a witness. -/
theorem EngineEvent.completes_or_asks {i : Instr} {s t : State} (h : EngineEvent i s t) :
    (t.phase = .idle ∧ t.status.done = true) ∨
      (destination i = none ∧ t.phase = .waitRng ∧ t.rng = .requested 2 (s.work.sm - 2)) := by
  cases h with
  | result rd v _ => exact .inl ⟨rfl, rfl⟩
  | verdict b _ => exact .inl ⟨rfl, rfl⟩
  | error e => exact .inl ⟨rfl, rfl⟩
  | request d e rnd hi => exact .inr ⟨hi, rfl, rfl⟩

/-- A running command without a destination is an `MRTEST`. -/
theorem State.runsTest_of_destination_none {s : State} {i : Instr} (hrun : s.phase = .run)
    (hi : decode s.work.ir = .ok i) (hd : destination i = none) : s.runsTest := by
  obtain ⟨rm, rounds, rfl⟩ := destination_none hd
  exact ⟨hrun, rm, rounds, hi⟩

/-- Settles O25: of the events of a step only the listed ones change the phase. -/
theorem phaseTransitionsAreTheListedOnes : Obligations.PhaseTransitionsAreTheListedOnes := by
  intro s t hstep hphase
  cases step_cases hstep with
  | quiet rest b => exact absurd rfl hphase
  | command i rest hrun hmoves hi he =>
    rcases (exec_cases he).completes_or_asks with ⟨hidle, hdone⟩ | ⟨hd, hwaits, hport⟩
    · exact .inr (.inr (.inr (.inl ⟨hrun, hmoves, hidle, hdone⟩)))
    · exact .inr (.inl ⟨State.runsTest_of_destination_none hrun hi hd, hmoves, hwaits, hport⟩)
  | illegal why rest hrun hmoves _ => exact .inr (.inr (.inr (.inl ⟨hrun, hmoves, rfl, rfl⟩)))
  | reset rest b hreset => exact .inr (.inr (.inr (.inr ⟨hreset, rfl⟩)))
  | enables v rest _ _ => exact absurd rfl hphase
  | statusWrite v rest _ => exact absurd rfl hphase
  | acceptance c rest hidle hin => exact .inl ⟨hidle, rfl, c, rest, hin, rfl⟩
  | limbWrite addr v rest r k _ _ _ => exact absurd rfl hphase
  | dropped addr v rest _ _ => exact absurd rfl hphase
  | answer ok v rest hwaits hin => exact .inr (.inr (.inl ⟨hwaits, rfl, ok, v, rest, hin⟩))

/-- A command's event changes `PP` only as a verdict. -/
theorem EngineEvent.pp_changed {i : Instr} {s t : State} (h : EngineEvent i s t) (hpp : t.status.pp ≠ s.status.pp) :
    destination i = none ∧ t.phase = .idle ∧ t.status.done = true ∧ t.status.err = s.status.err := by
  cases h with
  | result rd v _ => exact absurd rfl hpp
  | verdict b hi => exact ⟨hi, rfl, rfl, rfl⟩
  | error e => exact absurd rfl hpp
  | request d e rnd _ => exact absurd rfl hpp

/-- Settles O45: of the events of a step only reset and a command's verdict change `PP`. -/
theorem onlyMrtestAndResetChangePp : Obligations.OnlyMrtestAndResetChangePp := by
  intro s t hstep hpp
  cases step_cases hstep with
  | command i rest hrun hmoves hi he =>
    obtain ⟨hd, hidle, hdone, herr⟩ := (exec_cases he).pp_changed hpp
    exact .inr ⟨State.runsTest_of_destination_none hrun hi hd, hmoves, hidle, hdone, herr⟩
  | reset rest b hreset => exact .inl hreset
  | _ => exact absurd rfl hpp

/-- A command's event changes a general register only as its result. -/
theorem EngineEvent.reg_changed {i : Instr} {s t : State} {r : Reg} (h : EngineEvent i s t) (hr : t.reg r ≠ s.reg r) :
    destination i = some r ∧ t.phase = .idle ∧ t.status.done = true ∧ t.status.err = s.status.err ∧
      ∀ r', r' ≠ r → t.reg r' = s.reg r' := by
  cases h with
  | result rd v hi =>
    obtain rfl : r = rd := by
      by_contra hne
      exact hr (s.completeReg_reg_other v hne)
    exact ⟨hi, rfl, rfl, rfl, fun r' => s.completeReg_reg_other v⟩
  | verdict b _ => exact absurd rfl hr
  | error e => exact absurd rfl hr
  | request d e rnd _ => exact absurd rfl hr

/-- Settles O46: of the events of a step only reset, a limb write and a command's result change a general register. -/
theorem registerWritersAreTheListedOnes : Obligations.RegisterWritersAreTheListedOnes := by
  intro s t r hstep hr
  cases step_cases hstep with
  | command i rest hrun hmoves hi he =>
    obtain ⟨hd, hidle, hdone, herr, hothers⟩ := (exec_cases he).reg_changed hr
    exact .inr (.inr ⟨hrun, hmoves, i, hi, hd, hidle, hdone, herr, hothers⟩)
  | reset rest b hreset => exact .inl hreset
  | limbWrite addr v rest r₀ k hidle ht hin =>
    obtain rfl : r = r₀ := by
      by_contra hne
      exact hr ((s.taken rest .ok).writeReg_reg_other _ hne)
    exact .inr (.inl ⟨hidle, addr, v, k, rest, hin, ht⟩)
  | _ => exact absurd rfl hr

/-! ### Two runs of a command on the same latch (R47, 00_scope R13) -/

/-- The same thing happens in two states: the same result in the same register, or the same verdict, error or request. -/
inductive SameEvent (s u : State) : State → State → Prop where
  | result (rd : Reg) (v : Nat) : SameEvent s u (s.completeReg rd v) (u.completeReg rd v)
  | verdict (b : Bool) : SameEvent s u (s.completeVerdict b) (u.completeVerdict b)
  | error (e : ErrKind) : SameEvent s u (s.raise e) (u.raise e)
  | request (d e rnd : Nat) : SameEvent s u (s.requestWitness d e rnd) (u.requestWitness d e rnd)

/-- Each answers a next state, and the same thing happens. -/
def SameOutcome (s u : State) (o p : Host.Outcome State Fault Refusal) : Prop :=
  ∃ t v, o = .next t ∧ p = .next v ∧ SameEvent s u t v

theorem SameOutcome.of_event {s u t v : State} (h : SameEvent s u t v) : SameOutcome s u (.next t) (.next v) :=
  ⟨t, v, rfl, rfl, h⟩

theorem State.nextRound_same (s u : State) (d e rnd : Nat) : SameEvent s u (s.nextRound d e rnd) (u.nextRound d e rnd) := by
  cases rnd with
  | zero => exact .verdict true
  | succ r => exact .request d e r

section
variable {s u : State} (hw : s.work = u.work)
include hw

theorem State.startTest_same (rounds : Nat) : SameEvent s u (s.startTest rounds) (u.startTest rounds) := by
  simp only [State.startTest, hw]
  cases preScreen u.work.sm with
  | some b => exact .verdict b
  | none => exact s.nextRound_same u _ _ _

theorem State.resumeTest_same (ok : Bool) (a : Nat) : SameEvent s u (s.resumeTest ok a) (u.resumeTest ok a) := by
  simp only [State.resumeTest, hw]
  split_ifs
  · exact .error _
  · exact s.nextRound_same u _ _ _
  · exact .verdict false

/-- What a command's event does depends on the latch, the width and the port. -/
theorem exec_same (i : Instr) (hl : s.limbs = u.limbs) (hport : s.rng = u.rng) : SameOutcome s u (exec i s) (exec i u) := by
  have hwidth : s.width = u.width := congrArg (32 * ·) hl
  cases i with
  | gcd rd ra rb =>
    simp only [exec, execGcd, hw]
    exact .of_event (.result _ _)
  | lcm rd ra rb =>
    simp only [exec, execLcm, hw, hwidth]
    split_ifs
    · exact .of_event (.result _ _)
    · exact .of_event (.error _)
  | modmul rd ra rb rm =>
    simp only [exec, execModmul, hw]
    split_ifs
    · exact .of_event (.error _)
    · exact .of_event (.result _ _)
  | modpow rd ra rb rm =>
    simp only [exec, execModpow, hw]
    split_ifs
    · exact .of_event (.error _)
    · exact .of_event (.result _ _)
  | encrypt rd ra rb rm =>
    simp only [exec, execEncrypt, hw]
    split_ifs
    · exact .of_event (.error _)
    · exact .of_event (.result _ _)
  | modinv rd ra rm =>
    simp only [exec, execModinv, hw]
    split_ifs
    · exact .of_event (.error _)
    · cases modInv u.work.sa u.work.sm with
      | none => exact .of_event (.error _)
      | some v => exact .of_event (.result _ _)
  | mrtest rm rounds =>
    simp only [exec, execMrtest, hport]
    cases u.rng with
    | answered ok a => exact .of_event (State.resumeTest_same hw ok a)
    | idle => exact .of_event (State.startTest_same hw rounds)
    | requested lo hi => exact .of_event (State.startTest_same hw rounds)

end

/-- The same event leaves the same phase, port and `STATUS`, and treats each register alike. -/
theorem SameEvent.agree {s u t v : State} (h : SameEvent s u t v) (hw : s.work = u.work) (hst : s.status = u.status) :
    t.phase = v.phase ∧ t.rng = v.rng ∧ t.status = v.status ∧
      ∀ r, t.reg r = v.reg r ∨ (t.reg r = s.reg r ∧ v.reg r = u.reg r) := by
  cases h with
  | result rd x =>
    refine ⟨rfl, rfl, by simp [hst], fun r => ?_⟩
    by_cases hr : r = rd
    · subst hr
      simp
    · exact .inr ⟨s.completeReg_reg_other x hr, u.completeReg_reg_other x hr⟩
  | verdict b => exact ⟨rfl, rfl, by simp [hst], fun r => .inr ⟨rfl, rfl⟩⟩
  | error e => exact ⟨rfl, rfl, by simp [hst], fun r => .inr ⟨rfl, rfl⟩⟩
  | request d e rnd => exact ⟨rfl, by simp [hw], by simp [hst], fun r => .inr ⟨rfl, rfl⟩⟩

/-- Settles O47: on the same latch, width and port the same thing happens. -/
theorem commandsSeeOnlyTheLatch : Obligations.CommandsSeeOnlyTheLatch := by
  intro i s u t v hw hl hport hst ht hv
  obtain ⟨t', v', ht', hv', hsame⟩ := exec_same hw i hl hport
  cases ht.symm.trans ht'
  cases hv.symm.trans hv'
  obtain ⟨hphase, hrng, hstatus, hregs⟩ := hsame.agree hw hst
  exact ⟨hphase, hrng, hstatus, fun r _ => hregs r⟩

end Sys2Proof.Machine

/-! # Acceptance and the host's accesses to the control registers (spec/10_state.md R40 to R48, R55) -/

namespace Sys2Proof

/-- R108: a command's word decodes to it. -/
theorem decode_encode {i : Instr} (h : i.wellFormed = true) : decode (encode i) = .ok i := by
  cases i with
  | mrtest rm rounds =>
    have hr : rounds < 256 := by simpa [Instr.wellFormed] using h
    simp [decode, encode, encodeFields_op, encodeFields_imm8, encodeFields_rsv, encodeFields_rd, encodeFields_ra,
      encodeFields_rb, encodeFields_rm, hr]
  | _ =>
    simp [decode, encode, encodeFields_op, encodeFields_imm8, encodeFields_rsv, encodeFields_rd, encodeFields_ra,
      encodeFields_rb, encodeFields_rm]

/-- A legal table word of 32 bits is the word of its command. -/
theorem decode_of_decodeTableWord {w : Nat} {i : Instr} (h : decodeTableWord 32 w = some i) (hw : w < 2 ^ 32) :
    decode (BitVec.ofNat 32 w) = .ok i := by
  simp only [decodeTableWord, Nat.mod_eq_of_lt hw, hw, if_true] at h
  cases hd : decode (BitVec.ofNat 32 w) with
  | ok j =>
    rw [hd] at h
    cases h
    rfl
  | illegal why =>
    rw [hd] at h
    cases h

end Sys2Proof

namespace Sys2Proof.Machine

/-! ### The engine's turn and acceptance (R35, R46) -/

/-- In `RUN` an engine entry of the inbox is the event of the command in `IR`. -/
theorem step_engine_of_command {s : State} {i : Instr} {rest : List Input} (hin : s.inbox = .engine :: rest)
    (hrun : s.phase = .run) (hi : decode s.work.ir = .ok i) : step s = exec i { s with inbox := rest } := by
  rw [step_event hin]
  exact State.engineTurn_of_command hrun hi

/-- Settles O7, by what the engine's turn is in `RUN`. -/
theorem stepRunsDecodedCommand : Obligations.StepRunsDecodedCommand := by
  intro s i hrun hi
  refine ⟨fun hin => ?_, fun rest hin => step_engine_of_command hin hrun hi⟩
  rw [step_idle_inbox hin]
  exact State.engineTurn_of_command hrun hi

/-- Settles O8: `withFetchWord` is an accepted word with the engine's turn first in the inbox. -/
theorem fetchWordStepRunsCommand : Obligations.FetchWordStepRunsCommand := by
  intro s w i hw hlt
  rw [State.withFetchWord, Nat.mod_eq_of_lt hlt]
  exact step_engine_of_command rfl rfl (decode_of_decodeTableWord hw hlt)

/-- A `CMD` write in `IDLE` is acceptance. -/
theorem step_commandWrite {s : State} {c : Word} {rest : List Input} (hidle : s.phase = .idle)
    (hin : s.inbox = .write 0x010 4 c :: rest) : step s = .next ((s.taken rest .ok).accept c) := by
  rw [step_write_mapped hin (target := .cmd) rfl]
  exact congrArg _ (State.writeTarget_cmd_of_idle (s := s.taken rest .ok) hidle c)

/-! ### The control registers as words -/

/-- A bit of a word, from its number. -/
theorem getLsbD_of_div_mod {c : Word} {k : Nat} {b : Bool} (h : c.toNat / 2 ^ k % 2 = b.toNat) : c.getLsbD k = b := by
  rw [BitVec.getLsbD, Nat.testBit_eq_decide_div_mod_eq, h]
  cases b <;> rfl

theorem flagBit_eq (b : Bool) (pos : Nat) : flagBit b pos = b.toNat * 2 ^ pos := by
  cases b <;> simp [flagBit]

theorem State.cfgWord_toNat (s : State) : s.cfgWord.toNat = s.limbs % 256 + 8 * 256 := by
  simp only [State.cfgWord, Config.nreg, BitVec.toNat_ofNat]
  omega

theorem State.ctrlWord_toNat (s : State) : s.ctrlWord.toNat = s.ctrl.ieDone.toNat + s.ctrl.ieErr.toNat * 2 := by
  have hd := s.ctrl.ieDone.toNat_lt
  have he := s.ctrl.ieErr.toNat_lt
  simp only [State.ctrlWord, flagBit_eq, BitVec.toNat_ofNat]
  omega

theorem State.statusWord_toNat (s : State) :
    s.statusWord.toNat = s.busy.toNat + s.status.done.toNat * 2 + s.status.err.toNat * 4 + s.status.pp.toNat * 8 +
      s.status.cmderr.toNat * 16 + s.status.errcode.toNat * 256 := by
  have hb := s.busy.toNat_lt
  have hd := s.status.done.toNat_lt
  have he := s.status.err.toNat_lt
  have hp := s.status.pp.toNat_lt
  have hc := s.status.cmderr.toNat_lt
  have hcode := s.status.errcode.isLt
  simp only [State.statusWord, flagBit_eq, BitVec.toNat_ofNat]
  omega

/-- `CFG` read: its two fields and the reserved bits (R41). -/
theorem State.cfgWord_fields (s : State) (h : s.limbs ≤ Config.maxLimbs) :
    bits 7 0 s.cfgWord = s.limbs ∧ bits 11 8 s.cfgWord = 8 ∧ bits 31 12 s.cfgWord = 0 := by
  simp only [Config.maxLimbs] at h
  simp only [bits, State.cfgWord_toNat]
  omega

/-- `CTRL` read: the two enables and the bits that read 0 (R42). -/
theorem State.ctrlWord_fields (s : State) :
    s.ctrlWord.getLsbD 0 = s.ctrl.ieDone ∧ s.ctrlWord.getLsbD 1 = s.ctrl.ieErr ∧ bits 31 2 s.ctrlWord = 0 := by
  have hd := s.ctrl.ieDone.toNat_lt
  have he := s.ctrl.ieErr.toNat_lt
  have hw := s.ctrlWord_toNat
  have hreserved : bits 31 2 s.ctrlWord = 0 := by
    simp only [bits]
    omega
  exact ⟨getLsbD_of_div_mod (by omega), getLsbD_of_div_mod (by omega), hreserved⟩

/-- `STATUS` read: its flags, `ERRCODE` and the reserved bits (R43). -/
theorem State.statusWord_fields (s : State) :
    s.statusWord.getLsbD 0 = s.busy ∧ s.statusWord.getLsbD 1 = s.status.done ∧ s.statusWord.getLsbD 2 = s.status.err ∧
      s.statusWord.getLsbD 3 = s.status.pp ∧ s.statusWord.getLsbD 4 = s.status.cmderr ∧ bits 7 5 s.statusWord = 0 ∧
      bits 15 8 s.statusWord = s.status.errcode.toNat ∧ bits 31 16 s.statusWord = 0 := by
  have hb := s.busy.toNat_lt
  have hd := s.status.done.toNat_lt
  have he := s.status.err.toNat_lt
  have hp := s.status.pp.toNat_lt
  have hc := s.status.cmderr.toNat_lt
  have hcode := s.status.errcode.isLt
  have hw := s.statusWord_toNat
  have hfields : bits 7 5 s.statusWord = 0 ∧ bits 15 8 s.statusWord = s.status.errcode.toNat ∧
      bits 31 16 s.statusWord = 0 := by
    simp only [bits]
    omega
  exact ⟨getLsbD_of_div_mod (by omega), getLsbD_of_div_mod (by omega), getLsbD_of_div_mod (by omega),
    getLsbD_of_div_mod (by omega), getLsbD_of_div_mod (by omega), hfields⟩

theorem State.busy_eq_decide (s : State) : s.busy = decide (s.phase ≠ .idle) := by
  by_cases h : s.phase = .idle
  · simp [State.busy_eq_false h, h]
  · simp [State.busy_eq_true h, h]

/-- Settles O13: what each control register reads as. -/
theorem controlRegistersReadTheirFields : Obligations.ControlRegistersReadTheirFields := by
  intro s hl
  refine ⟨rfl, ⟨_, rfl, s.cfgWord_fields hl⟩, ⟨_, rfl, s.ctrlWord_fields⟩, ⟨_, rfl, ?_⟩, rfl⟩
  rw [← State.busy_eq_decide]
  exact s.statusWord_fields

/-- Settles O9: the write is acceptance, and acceptance is a set of assignments. -/
theorem commandWriteIsAcceptance : Obligations.CommandWriteIsAcceptance := by
  intro s c rest hidle hin
  have hbusy : ((s.taken rest .ok).accept c).statusWord.getLsbD 0 = true := (State.statusWord_fields _).1
  exact ⟨_, step_commandWrite hidle hin, rfl, rfl, rfl, rfl, rfl, rfl, rfl, rfl, hbusy, rfl, rfl, fun _ => rfl, rfl, rfl,
    rfl, rfl, rfl⟩

/-! ### Writes to `STATUS` and `CTRL` (R42, R44) -/

theorem step_statusWrite {s : State} {v : Word} {rest : List Input} (hin : s.inbox = .write 0x00C 4 v :: rest) :
    step s = .next { s.taken rest .ok with status := s.status.written v } :=
  step_write_mapped hin (target := .status) rfl

/-- A command that completes sets `DONE`. -/
theorem exec_done_of_idle {i : Instr} {s t : State} (h : exec i s = .next t) (hidle : t.phase = .idle) :
    t.status.done = true := by
  rcases (exec_cases h).completes_or_asks with ⟨-, hdone⟩ | ⟨-, hwaits, -⟩
  · exact hdone
  · exact nomatch hidle.symm.trans hwaits

/-- A flag where the word writes 1 is cleared, and kept elsewhere. -/
theorem and_not_eq_ite (b c : Bool) : (b && !c) = if c then false else b := by
  cases c <;> simp

/-- Settles O15: the write's effect on each field, and that a later completion sets `DONE`. -/
theorem statusWriteOneToClear : Obligations.StatusWriteOneToClear := by
  intro s v rest hin
  exact ⟨_, step_statusWrite hin, and_not_eq_ite _ _, and_not_eq_ite _ _, rfl, and_not_eq_ite _ _, rfl, rfl, fun _ => rfl,
    rfl, rfl, rfl, rfl, fun _ _ => exec_done_of_idle⟩

/-- Settles O16: with bit 31 clear the write reaches the two enables alone. -/
theorem controlWriteSetsEnables : Obligations.ControlWriteSetsEnables := by
  intro s v rest hv hin
  rw [step_write_mapped hin (target := .ctrl) rfl, State.writeTarget_ctrl_of_not_reset _ hv]
  rfl

/-! ### The reset state (R55) -/

/-- A reset leaves every piece of the engine's state at its value of R55. -/
theorem State.engineReset_atReset (s : State) : AtReset s.engineReset where
  regs := s.engineReset_reg
  phase := rfl
  ctrl := by simp [State.ctrlWord, flagBit]
  status := by simp [State.statusWord, State.busy, flagBit]
  work := rfl
  port := rfl
  irq := rfl

/-- Settles O21: the reset state is what a reset makes of itself. -/
theorem resetStateHasTheSpecsValues : Obligations.ResetStateHasTheSpecsValues :=
  ⟨State.reset.engineReset_atReset, rfl, rfl, rfl⟩

/-! ### From the `CMD` write to the result (R46, R47) -/

/-- One step of a run. -/
theorem run_succ {s t : State} (h : step s = .next t) (k : Nat) :
    Sys2Proof.core.run (k + 1) s = Sys2Proof.core.run k t := by
  have hcore : Sys2Proof.core.step s = .next t := h
  simp only [Host.Core.run, hcore]

/-- A command word written in `IDLE` and the engine's turn: the event of that command on the state just accepted. -/
theorem run_written_command {s : State} {i : Instr} {rest : List Input} (hi : i.wellFormed = true)
    (hidle : s.phase = .idle) (hin : s.inbox = .write 0x010 4 (encode i) :: .engine :: rest) :
    Sys2Proof.core.run 2 s = exec i ((s.taken rest .ok).accept (encode i)) := by
  obtain ⟨t, ht, -⟩ := exec_event i ((s.taken rest .ok).accept (encode i))
  have hturn := step_engine_of_command (s := (s.taken (.engine :: rest) .ok).accept (encode i)) rfl rfl (decode_encode hi)
  exact (run_succ (step_commandWrite hidle hin) 1).trans ((run_succ (hturn.trans ht) 0).trans ht.symm)

section
variable {s : State} {i : Instr} {rest : List Input} (hi : i.wellFormed = true) (hidle : s.phase = .idle)
  (hin : s.inbox = .write 0x010 4 (encode i) :: .engine :: rest)
include hi hidle hin

/-- Where the event is a result, the run leaves it in its register and the other registers as they were. -/
theorem run_written_result {rd : Reg} {x v : Nat}
    (h : exec i ((s.taken rest .ok).accept (encode i)) = .next (((s.taken rest .ok).accept (encode i)).completeReg rd x))
    (hx : x = v) :
    ∃ t, Sys2Proof.core.run 2 s = .next t ∧ t.reg rd = v ∧ (∀ r, r ≠ rd → t.reg r = s.reg r) ∧ t.phase = .idle ∧
      t.status.done = true ∧ t.status.err = false :=
  ⟨_, (run_written_command hi hidle hin).trans h, (State.completeReg_reg_self _ _ _).trans hx,
    fun _ => State.completeReg_reg_other _ _, rfl, rfl, rfl⟩

/-- Where the event is an error, the run writes no register. -/
theorem run_written_error {e : ErrKind}
    (h : exec i ((s.taken rest .ok).accept (encode i)) = .next (((s.taken rest .ok).accept (encode i)).raise e)) :
    ∃ t, Sys2Proof.core.run 2 s = .next t ∧ (∀ r, t.reg r = s.reg r) ∧ t.phase = .idle ∧ t.status.done = true ∧
      t.status.err = true ∧ t.status.errcode = e.code :=
  ⟨_, (run_written_command hi hidle hin).trans h, fun _ => rfl, rfl, rfl, rfl, rfl⟩

end

/-- The latch after acceptance of an encoded word: the registers its fields name (R47; 30_encoding R101). -/
theorem State.accept_encodeFields_work (s : State) {op imm8 : Nat} (rd ra rb rm : Reg) (hop : op < 256)
    (himm : imm8 < 256) : (s.accept (encodeFields op imm8 rd ra rb rm)).work =
      { s.work with
        ir := encodeFields op imm8 rd ra rb rm, sa := s.reg ra, sb := s.reg rb, sm := s.reg rm } := by
  simp only [State.accept_work, State.latchSources_work, encodeFields_ra _ _ _ _ _ _ hop himm,
    encodeFields_rb _ _ _ _ _ _ hop himm, encodeFields_rm _ _ _ _ _ _ hop himm]

theorem exec_gcd (rd ra rb : Reg) (s : State) :
    exec (.gcd rd ra rb) s = .next (s.completeReg rd (Nat.gcd s.work.sa s.work.sb)) := by
  rw [← gcd_eq]
  rfl

theorem exec_modmul_of_ne_zero (rd ra rb rm : Reg) {s : State} (h : s.work.sm ≠ 0) :
    exec (.modmul rd ra rb rm) s = .next (s.completeReg rd (s.work.sa * s.work.sb % s.work.sm)) :=
  if_neg h

theorem exec_modpow_of_ne_zero (rd ra rb rm : Reg) {s : State} (h : s.work.sm ≠ 0) :
    exec (.modpow rd ra rb rm) s = .next (s.completeReg rd (s.work.sa ^ s.work.sb % s.work.sm)) := by
  rw [← modPow_eq _ _ _ (Nat.pos_of_ne_zero h)]
  exact if_neg h

theorem exec_encrypt_of_le (rd ra rb rm : Reg) {s : State} (h : s.work.sm ≤ s.work.sa) :
    exec (.encrypt rd ra rb rm) s = .next (s.raise .messageTooLarge) :=
  if_pos h

/-- Settles O20: each command's event on the state just accepted, whose latch holds the named registers. -/
theorem writtenCommandComputesFromItsRegisters : Obligations.WrittenCommandComputesFromItsRegisters := by
  intro s rd ra rb rm rest hidle _
  have latch (op : Nat) (hop : op < 256) (rm : Reg) :=
    (s.taken rest .ok).accept_encodeFields_work rd ra rb rm hop (imm8 := 0) (by decide)
  refine ⟨fun hin => ?_, fun hin hm => ?_, fun hin hm => ?_, fun hin hm => ?_⟩
  · exact run_written_result rfl hidle hin (exec_gcd _ _ _ _) (by rw [encode, latch _ (by decide)]; rfl)
  · have hw := latch 0x03 (by decide) rm
    exact run_written_result rfl hidle hin (exec_modmul_of_ne_zero _ _ _ _ (by rw [encode, hw]; exact hm))
      (by rw [encode, hw]; rfl)
  · have hw := latch 0x04 (by decide) rm
    exact run_written_result rfl hidle hin (exec_modpow_of_ne_zero _ _ _ _ (by rw [encode, hw]; exact hm))
      (by rw [encode, hw]; rfl)
  · have hw := latch 0x05 (by decide) rm
    exact run_written_error rfl hidle hin (exec_encrypt_of_le _ _ _ _ (by rw [encode, hw]; exact hm))

end Sys2Proof.Machine

/-! # The register window: its map, its bad accesses, its limbs, and what it does while busy (spec/20_memory.md R71 to R79) -/

namespace Sys2Proof.Machine

/-! ### The map (R71, R73) -/

/-- An access gets the bus error exactly when it has another width, is misaligned, or falls in one of the two unmapped
ranges. -/
theorem busTarget_eq_none_iff {limbs addr width : Nat} :
    busTarget limbs addr width = none ↔
      width ≠ 4 ∨ addr % 4 ≠ 0 ∨ (0x014 ≤ addr ∧ addr ≤ 0x0FF) ∨ 0x100 + 8 * stride limbs ≤ addr := by
  unfold busTarget
  split_ifs <;> simp only [true_iff, false_iff] <;> omega

/-- What an aligned access inside the window of the general registers reaches. -/
theorem busTarget_window {limbs offset : Nat} (hend : offset < 8 * stride limbs) (haligned : offset % 4 = 0) :
    busTarget limbs (0x100 + offset) 4 =
      some (.limb (Fin.ofNat 8 (offset / stride limbs)) (offset % stride limbs / 4)) := by
  unfold busTarget
  rw [if_neg (by omega), if_neg (by omega), if_neg (by omega), if_neg (by omega), if_neg (by omega), if_neg (by omega),
    if_pos (by omega), Nat.add_sub_cancel_left]

/-- The limbs a register has are mapped at their offsets. -/
theorem busTarget_limbAddr {limbs k : Nat} (r : Reg) (hk : k < limbs) :
    busTarget limbs (limbAddr limbs r k) 4 = some (.limb r k) := by
  have hinside : 4 * k < stride limbs := Nat.mul_lt_mul_of_pos_left hk (by decide)
  have hend : r.val * stride limbs + 4 * k < 8 * stride limbs := by
    have hr : r.val * stride limbs ≤ 7 * stride limbs := Nat.mul_le_mul_right _ (Nat.le_of_lt_succ r.isLt)
    omega
  have haligned : (r.val * stride limbs + 4 * k) % 4 = 0 := by
    rw [stride, Nat.mul_left_comm, ← Nat.mul_add, Nat.mul_mod_right]
  have hreg : (r.val * stride limbs + 4 * k) / stride limbs = r.val := by
    rw [Nat.mul_comm, Nat.mul_add_div (Nat.zero_lt_of_lt hinside), Nat.div_eq_of_lt hinside, Nat.add_zero]
  have hlimb : (r.val * stride limbs + 4 * k) % stride limbs = 4 * k := by
    rw [Nat.mul_add_mod_self_right, Nat.mod_eq_of_lt hinside]
  rw [limbAddr, Nat.add_assoc, busTarget_window hend haligned, hreg, hlimb, Fin.ofNat_val_eq_self,
    Nat.mul_div_cancel_left k (by decide)]

/-- A limb is reached only at its own offset. -/
theorem addr_eq_limbAddr_of_busTarget {limbs addr width : Nat} {r : Reg} {k : Nat}
    (h : busTarget limbs addr width = some (.limb r k)) : addr = limbAddr limbs r k := by
  unfold busTarget at h
  split_ifs at h with hbad _ _ _ _ _ hrange
  all_goals simp only [Option.some.injEq, reduceCtorEq, Target.limb.injEq] at h
  obtain ⟨rfl, rfl⟩ := h
  have hreg : (addr - 0x100) / stride limbs < 8 := Nat.div_lt_of_lt_mul (by omega)
  have haligned : (addr - 0x100) % stride limbs % 4 = 0 := by
    rw [stride, Nat.mod_mul_right_mod]
    omega
  have hsplit := Nat.div_add_mod' (addr - 0x100) (stride limbs)
  rw [limbAddr, Fin.val_ofNat, Nat.mod_eq_of_lt hreg]
  omega

/-- Settles O12: where the limbs stand, and where nothing does. -/
theorem registerMapIsExact : Obligations.RegisterMapIsExact := by
  intro L
  refine ⟨rfl, rfl, rfl, rfl, rfl, fun addr hlo hhi => ?_, fun i k => busTarget_limbAddr i, fun addr hend => ?_,
    fun addr r k h => ⟨busTarget_limb_lt h, addr_eq_limbAddr_of_busTarget h⟩, fun r => ?_⟩
  · exact busTarget_eq_none_iff.2 (.inr (.inr (.inl ⟨hlo, hhi⟩)))
  · exact busTarget_eq_none_iff.2 (.inr (.inr (.inr hend)))
  · rw [limbAddr, stride]
    omega

/-! ### Reads, bad accesses, read-only targets (R73, R74, R77) -/

/-- A bus read of a mapped offset answers the target's word. -/
theorem step_read_mapped {s : State} {addr width : Nat} {rest : List Input} {target : Target}
    (h : s.inbox = .read addr width :: rest) (ht : busTarget s.limbs addr width = some target) :
    step s = .next (s.taken rest (.data (s.readTarget target))) := by
  rw [step_event h]
  simp only [State.perform, State.hostRead, State.busRead, ht, Option.map_some]
  rfl

/-- A bus read that reaches nothing changes nothing. -/
theorem step_read_unmapped {s : State} {addr width : Nat} {rest : List Input}
    (h : s.inbox = .read addr width :: rest) (ht : busTarget s.limbs addr width = none) :
    step s = .next (s.taken rest .error) := by
  rw [step_event h]
  simp only [State.perform, State.hostRead, State.busRead, ht, Option.map_none]
  rfl

/-- Settles O11: each of these accesses reaches no target. -/
theorem badBusAccessChangesNothing : Obligations.BadBusAccessChangesNothing := by
  intro s addr width rest hbad
  have hnone := busTarget_eq_none_iff.2 hbad
  refine ⟨?_, fun hin => step_read_unmapped hin hnone, fun v hin => step_write_unmapped hin hnone⟩
  rw [State.busRead, hnone, Option.map_none]

/-- Settles O14: `ID` and `CFG` are mapped and a write to either has no effect. -/
theorem readOnlyWritesAreIgnored : Obligations.ReadOnlyWritesAreIgnored := by
  rintro s addr v rest (rfl | rfl) hin
  · exact step_write_mapped hin (target := .id) rfl
  · exact step_write_mapped hin (target := .cfg) rfl

/-! ### Limbs (R75, R77) -/

/-- A limb below bit `32 * k` is not affected by the bits from there on. -/
theorem limb_mod_two_pow (v : Nat) {j k : Nat} (h : j < k) : limb (v % 2 ^ (32 * k)) j = limb v j := by
  obtain ⟨i, rfl⟩ := Nat.exists_eq_add_of_lt h
  apply BitVec.eq_of_toNat_eq
  rw [limb_toNat, limb_toNat, show 32 * (j + i + 1) = 32 * j + (32 + 32 * i) by ring, pow_add, Nat.mod_mul_right_div_self,
    Nat.mod_mod_of_dvd _ (pow_dvd_pow 2 (Nat.le_add_right _ _))]

/-- The limbs from limb `k` on are the limbs of the bits from `32 * k` on. -/
theorem limb_div_two_pow (v i k : Nat) : limb (v / 2 ^ (32 * k)) i = limb v (k + i) := by
  rw [limb, limb, Nat.div_div_eq_div_mul, ← pow_add, ← mul_add]

/-- A limb write keeps the bits below the limb, and puts the limb under the bits above it. -/
theorem setLimb_eq (v k : Nat) (w : Word) :
    setLimb v k w = v % 2 ^ (32 * k) + 2 ^ (32 * k) * (w.toNat + 2 ^ 32 * (v / 2 ^ (32 * (k + 1)))) := by
  rw [setLimb, mul_add_one, pow_add]
  ring

theorem setLimb_mod_two_pow (v k : Nat) (w : Word) : setLimb v k w % 2 ^ (32 * k) = v % 2 ^ (32 * k) := by
  rw [setLimb_eq, Nat.add_mul_mod_self_left, Nat.mod_mod]

theorem setLimb_div_two_pow (v k : Nat) (w : Word) :
    setLimb v k w / 2 ^ (32 * (k + 1)) = v / 2 ^ (32 * (k + 1)) := by
  have hlow : setLimb v k w / 2 ^ (32 * k) = w.toNat + 2 ^ 32 * (v / 2 ^ (32 * (k + 1))) := by
    have hp := Nat.two_pow_pos (32 * k)
    rw [setLimb_eq, Nat.add_mul_div_left _ _ hp, Nat.div_eq_of_lt (Nat.mod_lt _ hp), Nat.zero_add]
  calc setLimb v k w / 2 ^ (32 * (k + 1)) = setLimb v k w / 2 ^ (32 * k) / 2 ^ 32 := by
        rw [Nat.div_div_eq_div_mul, ← pow_add, mul_add_one]
    _ = v / 2 ^ (32 * (k + 1)) := by
        rw [hlow, Nat.add_mul_div_left _ _ (by decide), Nat.div_eq_of_lt w.isLt, Nat.zero_add]

/-- A limb write keeps the other limbs. -/
theorem limb_setLimb_other (v : Nat) {j k : Nat} (w : Word) (h : j ≠ k) : limb (setLimb v k w) j = limb v j := by
  rcases Nat.lt_or_gt_of_ne h with hlt | hgt
  · rw [← limb_mod_two_pow _ hlt, setLimb_mod_two_pow, limb_mod_two_pow _ hlt]
  · obtain ⟨i, rfl⟩ := Nat.exists_eq_add_of_le hgt
    rw [← limb_div_two_pow, setLimb_div_two_pow, limb_div_two_pow]

/-- Settles O17: the write replaces one limb of one register. -/
theorem limbWriteChangesThatLimbOnly : Obligations.LimbWriteChangesThatLimbOnly := by
  intro s addr v rest r k hidle ht hin
  have hstep := step_write_mapped hin ht
  rw [State.writeTarget_limb_of_idle (by exact hidle)] at hstep
  refine ⟨_, hstep, ?_, fun j hj => ?_, fun r' hr => State.writeReg_reg_other _ _ hr, rfl, rfl, rfl, rfl, rfl, rfl⟩
  · rw [State.writeReg_reg_self, limb_setLimb_self]
  · rw [State.writeReg_reg_self, limb_setLimb_other _ _ hj, State.taken_reg]

/-- The low limbs sum to the low bits. -/
theorem sum_limbs_eq_mod (v L : Nat) :
    ∑ k ∈ Finset.range L, (limb v k).toNat * 2 ^ (32 * k) = v % 2 ^ (32 * L) := by
  induction L with
  | zero => simp [Nat.mod_one]
  | succ L ih => rw [Finset.sum_range_succ, ih, limb_toNat, mul_add_one, pow_add, Nat.mod_mul, mul_comm (2 ^ (32 * L))]

/-- Settles O18: a value that fits `L` limbs is its own low bits. -/
theorem registerIsSumOfLimbs : Obligations.RegisterIsSumOfLimbs := by
  intro v L hv
  rw [sum_limbs_eq_mod, Nat.mod_eq_of_lt hv]

/-! ### Accesses while busy (R79) -/

/-- A write to a limb or to `CMD` while busy is dropped. -/
theorem step_write_dropped {s : State} {addr : Nat} {v : Word} {rest : List Input} (hbusy : s.phase ≠ .idle)
    (hin : s.inbox = .write addr 4 v :: rest)
    (ht : addr = 0x010 ∨ ∃ r k, busTarget s.limbs addr 4 = some (.limb r k)) :
    step s = .next (s.taken rest .ok).dropWrite := by
  rcases ht with rfl | ⟨r, k, ht⟩
  · rw [step_write_mapped hin (target := .cmd) rfl, State.writeTarget_cmd_of_busy (by exact hbusy)]
  · rw [step_write_mapped hin ht, State.writeTarget_limb_of_busy (by exact hbusy)]

/-- No event between acceptance and completion writes a general register. -/
theorem step_keeps_regs_while_busy {s t : State} (hbusy : s.phase ≠ .idle) (hstep : step s = .next t)
    (hstill : t.phase ≠ .idle) (r : Reg) : t.reg r = s.reg r := by
  cases step_cases hstep with
  | command i rest hrun hmoves hi he =>
    by_contra hr
    obtain ⟨-, hidle, -⟩ := (exec_cases he).reg_changed hr
    exact hstill hidle
  | reset rest b hreset => exact absurd rfl hstill
  | limbWrite addr v rest r₀ k hidle ht hin => exact absurd hidle hbusy
  | _ => rfl

/-- Settles O10: what each access does while busy, and that nothing writes a general register until the command is over. -/
theorem busyWritesAreDropped : Obligations.BusyWritesAreDropped := by
  intro s hbusy
  refine ⟨fun addr v rest hin ht => ?_, fun v rest hv hin => ?_, fun v rest hin => ?_, fun addr target rest ht hin => ?_,
    fun r k => rfl, fun t hstep hstill => step_keeps_regs_while_busy hbusy hstep hstill⟩
  · exact ⟨_, step_write_dropped hbusy hin ht, fun _ => rfl, rfl, rfl, rfl, rfl, rfl, rfl, rfl, rfl, rfl, rfl, rfl⟩
  · exact ⟨_, controlWriteSetsEnables s v rest hv hin, rfl, rfl, rfl, rfl⟩
  · exact ⟨_, step_statusWrite hin, rfl, rfl⟩
  · exact ⟨_, step_read_mapped hin ht, rfl⟩

end Sys2Proof.Machine

/-! # The encoding: decoder, encoder and opcode table (spec/30_encoding.md R101 to R109) -/

namespace Sys2Proof

/-! ### A word is its fields (R101) -/

/-- A word with `rsv = 0` is what its other fields encode to. -/
theorem encodeFields_fields {c : Word} (hrsv : bits 15 12 c = 0) :
    encodeFields (bits 31 24 c) (bits 23 16 c) (regField 9 c) (regField 6 c) (regField 3 c) (regField 0 c) = c := by
  have hc := c.isLt
  apply BitVec.eq_of_toNat_eq
  rw [encodeFields_toNat _ _ _ _ _ _ (bits_lt 31 24 c) (bits_lt 23 16 c)]
  simp only [bits, regField_val] at hrsv ⊢
  omega

/-- Two words are equal exactly when their seven fields are. -/
theorem eq_iff_fields {c d : Word} :
    c = d ↔ bits 15 12 c = bits 15 12 d ∧ bits 31 24 c = bits 31 24 d ∧ bits 23 16 c = bits 23 16 d ∧
      bits 11 9 c = bits 11 9 d ∧ bits 8 6 c = bits 8 6 d ∧ bits 5 3 c = bits 5 3 d ∧ bits 2 0 c = bits 2 0 d := by
  refine ⟨fun h => by simp only [h, and_self], fun h => BitVec.eq_of_toNat_eq ?_⟩
  have hc := c.isLt
  have hd := d.isLt
  simp only [bits] at h
  omega

theorem regField_eq_zero_iff {lo : Nat} {c : Word} : regField lo c = 0 ↔ bits (lo + 2) lo c = 0 := by
  rw [Fin.ext_iff, regField_val, bits, show lo + 2 + 1 - lo = 3 by omega]
  rfl

theorem bits_ofNat (hi lo n : Nat) : bits hi lo (BitVec.ofNat 32 n) = n % 2 ^ 32 / 2 ^ lo % 2 ^ (hi + 1 - lo) := by
  rw [bits, BitVec.toNat_ofNat]

/-! ### Masks (R104) -/

/-- A field of a masked word is the field masked by the mask's own field. -/
theorem bits_and (hi lo : Nat) (c mask : Word) : bits hi lo (c &&& mask) = bits hi lo c &&& bits hi lo mask := by
  rw [bits, BitVec.toNat_and, Nat.and_div_two_pow, Nat.and_mod_two_pow, bits, bits]

/-- A mask with every bit of a field set keeps the field. -/
theorem bits_and_of_ones {hi lo ones : Nat} (h : ones = 2 ^ (hi + 1 - lo) - 1) (c : Word) :
    bits hi lo c &&& ones = bits hi lo c := by
  rw [h, Nat.and_two_pow_sub_one_of_lt_two_pow (bits_lt hi lo c)]

/-! ### What decodes to a command (R108) -/

/-- A word with the fields of a command is the word of that command, which is well formed. -/
theorem encode_of_fieldsOf {c : Word} {i : Instr} (hrsv : bits 15 12 c = 0) (h : FieldsOf c i) :
    i.wellFormed = true ∧ encode i = c := by
  have hc := encodeFields_fields hrsv
  cases i with
  | gcd rd ra rb | lcm rd ra rb =>
    obtain ⟨hop, himm, rfl, rfl, rfl, hrm⟩ := h
    rw [hop, himm, hrm] at hc
    exact ⟨rfl, hc⟩
  | modmul rd ra rb rm | modpow rd ra rb rm | encrypt rd ra rb rm =>
    obtain ⟨hop, himm, rfl, rfl, rfl, rfl⟩ := h
    rw [hop, himm] at hc
    exact ⟨rfl, hc⟩
  | modinv rd ra rm =>
    obtain ⟨hop, himm, rfl, rfl, hrb, rfl⟩ := h
    rw [hop, himm, hrb] at hc
    exact ⟨rfl, hc⟩
  | mrtest rm rounds =>
    obtain ⟨hop, rfl, hrd, hra, hrb, rfl⟩ := h
    rw [hop, hrd, hra, hrb] at hc
    exact ⟨decide_eq_true (bits_lt 23 16 c), hc⟩

/-- A word decodes to a command exactly when its fields are the command's. -/
theorem decode_eq_ok_iff {c : Word} {i : Instr} : decode c = .ok i ↔ bits 15 12 c = 0 ∧ FieldsOf c i := by
  refine ⟨decode_fields, fun ⟨hrsv, h⟩ => ?_⟩
  obtain ⟨hwf, rfl⟩ := encode_of_fieldsOf hrsv h
  exact decode_encode hwf

/-- Settles O1: the decoder reads back the fields the encoder has placed. -/
theorem decodeAfterEncodeIsIdentity : Obligations.DecodeAfterEncodeIsIdentity := fun _ => decode_encode

/-- Settles O2: a legal word has the fields of its command, and the encoder puts them back. -/
theorem encodeAfterDecodeIsIdentity : Obligations.EncodeAfterDecodeIsIdentity := by
  intro c i h
  obtain ⟨hrsv, hf⟩ := decode_fields h
  exact encode_of_fieldsOf hrsv hf

/-! ### The opcode table, and words that are no command (R104 to R107, R109) -/

/-- Settles O3: both sides of a row say the same of the word's fields. -/
theorem decoderAgreesWithOpcodeTable : Obligations.DecoderAgreesWithOpcodeTable := by
  intro c
  -- Both sides in terms of the fields; those of a mask and of a match are numbers.
  simp only [decode_eq_ok_iff, FieldsOf, regField_eq_zero_iff, eq_iff_fields (c := c &&& _), bits_and, bits_ofNat]
  simp [bits_and_of_ones]

/-- Settles O4: each word is the encoded word of its command. -/
theorem tableWordsDecode : Obligations.TableWordsDecode :=
  ⟨decode_encode (i := .gcd 2 0 1) rfl, decode_encode (i := .lcm 2 0 1) rfl, decode_encode (i := .modmul 3 0 1 2) rfl,
    decode_encode (i := .modpow 3 0 1 2) rfl, decode_encode (i := .encrypt 5 0 3 1) rfl,
    decode_encode (i := .modinv 4 3 2) rfl, decode_encode (i := .mrtest 2 10) rfl⟩

/-- Settles O5: a word with one of these fields does not have the fields of any command. -/
theorem reservedWordsAreIllegal : Obligations.ReservedWordsAreIllegal := by
  intro c hreserved
  cases hd : decode c with
  | illegal why => exact ⟨why, rfl⟩
  | ok i =>
    obtain ⟨hrsv, hf⟩ := decode_fields hd
    exfalso
    cases i
    all_goals
      simp only [FieldsOf] at hf
      simp [hrsv, hf] at hreserved

end Sys2Proof

namespace Sys2Proof.Machine

/-! ### The `LOAD` directive (R111) -/

theorem State.writeReg_writeReg (s : State) (r : Reg) (x y : Nat) : (s.writeReg r x).writeReg r y = s.writeReg r y := by
  simp only [State.writeReg, Vector.set_set]

theorem State.writeReg_reg_eq (s : State) (r : Reg) : s.writeReg r (s.reg r) = s := by
  simp only [State.writeReg, State.reg, Vector.set_getElem_self]

/-- A write of limb `k` of `v` to a value that has the limbs of `v` below it leaves one that has limb `k` too. -/
theorem setLimb_limb_mod_two_pow {x v k : Nat} (h : x % 2 ^ (32 * k) = v % 2 ^ (32 * k)) :
    setLimb x k (limb v k) % 2 ^ (32 * (k + 1)) = v % 2 ^ (32 * (k + 1)) := by
  rw [mul_add_one, pow_add, Nat.mod_mul, Nat.mod_mul, setLimb_mod_two_pow, h, ← limb_toNat, ← limb_toNat,
    limb_setLimb_self]

/-- A write in `IDLE` at the offset of a limb the register has. -/
theorem step_limbWrite {s : State} {r : Reg} {k : Nat} {w : Word} {rest : List Input} (hidle : s.phase = .idle)
    (hk : k < s.limbs) (hin : s.inbox = .write (limbAddr s.limbs r k) 4 w :: rest) :
    step s = .next ((s.taken rest .ok).writeReg r (setLimb (s.reg r) k w)) := by
  rw [step_write_mapped hin (busTarget_limbAddr r hk)]
  exact congrArg _ (State.writeTarget_limb_of_idle (s := s.taken rest .ok) hidle r k w)

/-- The writes of `LOAD` for the `n` limbs of `v` from limb `k` on. -/
def limbWrites (limbs : Nat) (r : Reg) (v k n : Nat) : List Input :=
  (List.range' k n).map fun j => .write (limbAddr limbs r j) 4 (limb v j)

theorem limbWrites_succ (limbs : Nat) (r : Reg) (v k n : Nat) :
    limbWrites limbs r v k (n + 1) = .write (limbAddr limbs r k) 4 (limb v k) :: limbWrites limbs r v (k + 1) n := by
  rw [limbWrites, List.range'_succ, List.map_cons, limbWrites]

theorem loadReg_eq_limbWrites (limbs : Nat) (r : Reg) (v : Nat) :
    Driver.loadReg limbs r v = limbWrites limbs r v 0 limbs := by
  rw [Driver.loadReg, List.range_eq_range', limbWrites]

/-- Where the register has the limbs of `v` below limb `k`, the writes of the others leave all of `v` in it. -/
theorem run_limbWrites (r : Reg) (v n : Nat) {k : Nat} {s : State} {rest : List Input} (hidle : s.phase = .idle)
    (hk : k + n = s.limbs) (hfits : s.reg r < 2 ^ s.width) (hlow : s.reg r % 2 ^ (32 * k) = v % 2 ^ (32 * k))
    (hin : s.inbox = limbWrites s.limbs r v k n ++ rest) :
    ∃ b, Sys2Proof.core.run n s = .next ((s.taken rest b).writeReg r (v % 2 ^ s.width)) := by
  induction n generalizing k s with
  | zero =>
    have hall : v % 2 ^ s.width = s.reg r := by
      rw [← Nat.mod_eq_of_lt hfits, State.width, ← hk]
      exact hlow.symm
    obtain rfl : s.inbox = rest := hin
    refine ⟨s.busResp, congrArg _ ?_⟩
    rw [hall]
    exact (State.writeReg_reg_eq s r).symm
  | succ n ih =>
    have hlt : k < s.limbs := by omega
    rw [limbWrites_succ] at hin
    have hstep := step_limbWrite hidle hlt hin
    obtain ⟨b, hrun⟩ := ih (k := k + 1)
      (s := (s.taken (limbWrites s.limbs r v (k + 1) n ++ rest) .ok).writeReg r (setLimb (s.reg r) k (limb v k))) hidle
      ((Nat.succ_add_eq_add_succ k n).trans hk)
      (by rw [State.writeReg_reg_self]; exact setLimb_lt _ _ _ _ hlt hfits)
      (by rw [State.writeReg_reg_self]; exact setLimb_limb_mod_two_pow hlow) rfl
    refine ⟨b, ((run_succ hstep n).trans hrun).trans (congrArg _ ?_)⟩
    exact State.writeReg_writeReg (s.taken rest b) r _ _

/-- Settles O19: the writes from limb 0 on leave a value that fits its register, and change nothing else. -/
theorem loadDirectiveSetsRegister : Obligations.LoadDirectiveSetsRegister := by
  intro s r v hidle hv hfits
  obtain ⟨b, hrun⟩ := run_limbWrites r v s.limbs (k := 0) (s := s.withScript (Driver.loadReg s.limbs r v))
    (rest := s.inbox) hidle (Nat.zero_add _) hfits ((Nat.mod_one _).trans (Nat.mod_one _).symm)
    (congrArg (· ++ s.inbox) (loadReg_eq_limbWrites s.limbs r v))
  refine ⟨_, hrun, ?_, fun r' hr => State.writeReg_reg_other _ _ hr, rfl, rfl, hidle, rfl⟩
  rw [State.writeReg_reg_self]
  exact Nat.mod_eq_of_lt hv

end Sys2Proof.Machine

/-! # The reference circuits of the arithmetic core (spec/40_arithmetic_core.md R136, R138) compute R135 and R132

Both loops read one operand from its most significant bit down. Before the iteration for bit `i` the bits read so far are
the operand shifted right by `i + 1`, and the loop's state is the answer for that prefix of the operand. -/

namespace Sys2Proof.Machine

/-- What reading bit `i` makes of the bits above it. -/
theorem shiftRight_eq_double_add_testBit (b i : Nat) :
    b >>> i = 2 * (b >>> (i + 1)) + (if b.testBit i then 1 else 0) := by
  have hbit : (if b.testBit i then 1 else 0) = b >>> i % 2 := by
    rw [Nat.shiftRight_eq_div_pow, ← Nat.toNat_testBit, Bool.toNat, cond_eq_ite]
  rw [hbit, Nat.shiftRight_succ, Nat.div_add_mod]

/-! ### The shift-add multiplier (R136) -/

/-- R133: within its precondition, one conditional subtraction is a reduction. -/
theorem condSub_eq_mod {v m : Nat} (h : v < 2 * m) : condSub v m = v % m := by
  unfold condSub
  split
  · next hle => rw [Nat.mod_eq_sub_mod hle, Nat.mod_eq_of_lt (by omega)]
  · next hlt => exact (Nat.mod_eq_of_lt (by omega)).symm

theorem condSub_double_mod (x : Nat) {m : Nat} (hm : 0 < m) : condSub (2 * (x % m)) m = 2 * x % m := by
  have hlt := Nat.mod_lt x hm
  rw [condSub_eq_mod (by omega), Nat.mul_mod_mod]

theorem condSub_add_mod (x a : Nat) {m : Nat} (hm : 0 < m) : condSub (x % m + a % m) m = (x + a) % m := by
  have hx := Nat.mod_lt x hm
  have ha := Nat.mod_lt a hm
  rw [condSub_eq_mod (by omega), ← Nat.add_mod]

/-- R136's loop invariant carried to the exit: from the residue for the bits of `b` above bit `i`, the residue for all. -/
theorem modMulRefLoop_prefix (a b : Nat) {m : Nat} (hm : 0 < m) (i : Nat) :
    modMulRefLoop (a % m) b m i (a * (b >>> i) % m) = a * b % m := by
  induction i with
  | zero => rfl
  | succ i ih =>
    rw [← ih, shiftRight_eq_double_add_testBit b i, modMulRefLoop, condSub_double_mod _ hm, Nat.mul_left_comm, mul_add]
    split
    · rw [condSub_add_mod _ _ hm, mul_one]
    · rfl

/-- Settles O41: the loop starts with no bit of `b` read, as `b` has none from bit `w` on. -/
theorem referenceMultiplierComputesModMul : Obligations.ReferenceMultiplierComputesModMul := by
  intro w a b m hm hb
  have h := modMulRefLoop_prefix a b hm w
  rwa [Nat.shiftRight_eq_zero b w hb, mul_zero, Nat.zero_mod] at h

/-! ### The restoring divider (R138) -/

/-- One more bit `c` of a dividend `x`: the trial subtraction decides the quotient's next bit, of weight `p`, and the
remainder. -/
theorem div_mod_double_add (p x : Nat) {c d : Nat} (hd : 0 < d) (hc : c ≤ 1) :
    (p * ((2 * x + c) / d), (2 * x + c) % d) =
      if d ≤ 2 * (x % d) + c then (p * 2 * (x / d) + p, 2 * (x % d) + c - d) else (p * 2 * (x / d), 2 * (x % d) + c) := by
  have hlt := Nat.mod_lt x hd
  have hx := Nat.div_add_mod x d
  split
  · obtain ⟨hq, hr⟩ : (2 * x + c) / d = 2 * (x / d) + 1 ∧ (2 * x + c) % d = 2 * (x % d) + c - d := by
      rw [Nat.div_mod_unique hd, mul_add_one, Nat.mul_left_comm]
      constructor <;> omega
    rw [hq, hr, mul_add_one, mul_assoc]
  · obtain ⟨hq, hr⟩ : (2 * x + c) / d = 2 * (x / d) ∧ (2 * x + c) % d = 2 * (x % d) + c := by
      rw [Nat.div_mod_unique hd, Nat.mul_left_comm]
      constructor <;> omega
    rw [hq, hr, mul_assoc]

/-- R138's loop carried to the exit: from the quotient (in its place) and the remainder of the bits of `n` above bit `i`,
those of all of `n`. -/
theorem divRemRefLoop_prefix (n : Nat) {d : Nat} (hd : 0 < d) (i : Nat) :
    divRemRefLoop n d i (2 ^ i * (n >>> i / d), n >>> i % d) = (n / d, n % d) := by
  induction i with
  | zero => rw [Nat.shiftRight_zero, pow_zero, one_mul, divRemRefLoop]
  | succ i ih =>
    have hbit : (if n.testBit i then 1 else 0) ≤ 1 := by split <;> decide
    rw [← ih, shiftRight_eq_double_add_testBit n i, div_mod_double_add _ _ hd hbit, divRemRefLoop, pow_succ]

/-- Settles O42: the loop starts above the dividend's top bit, where quotient and remainder are 0. -/
theorem referenceDividerDivides : Obligations.ReferenceDividerDivides := by
  intro n d hd
  have h := divRemRefLoop_prefix n hd (bitlen n)
  rwa [Nat.shiftRight_eq_zero n _ (bitlen_bound n), Nat.zero_div, Nat.zero_mod, mul_zero] at h

end Sys2Proof.Machine

/-! # `GCD` and `LCM` (spec/41_gcd_lcm.md R161, R163) -/

namespace Sys2Proof.Machine

/-- Settles O29: Euclid's loop ends with the greatest common divisor, and every `GCD` completes with its result. -/
theorem gcdCommand : Obligations.GcdCommand := by
  intro rd ra rb
  obtain ⟨hop, himm, -⟩ := Laws.FieldsInPlace.gcd rd ra rb rfl
  have hrm := encodeFields_rm 0x01 0 rd ra rb 0 (by decide) (by decide)
  exact ⟨⟨hop, himm, hrm⟩, fun s => ⟨_, exec_gcd rd ra rb s, s.completeReg_completes rd _⟩⟩

theorem exec_lcm_of_lt (rd ra rb : Reg) {s : State} (h : Nat.lcm s.work.sa s.work.sb < 2 ^ s.width) :
    exec (.lcm rd ra rb) s = .next (s.completeReg rd (Nat.lcm s.work.sa s.work.sb)) := by
  rw [← lcm_eq] at h ⊢
  exact if_pos ((fitsWidth_iff _ _).2 h)

theorem exec_lcm_of_le (rd ra rb : Reg) {s : State} (h : 2 ^ s.width ≤ Nat.lcm s.work.sa s.work.sb) :
    exec (.lcm rd ra rb) s = .next (s.raise .resultOverflow) := by
  rw [← lcm_eq] at h
  exact if_neg fun hfits => h.not_gt ((fitsWidth_iff _ _).1 hfits)

/-- Settles O30: the product is checked against `W` bits before it is written, so it is never truncated. -/
theorem lcmCommand : Obligations.LcmCommand := by
  intro rd ra rb
  obtain ⟨hop, himm, -⟩ := Laws.FieldsInPlace.lcm rd ra rb rfl
  have hrm := encodeFields_rm 0x02 0 rd ra rb 0 (by decide) (by decide)
  refine ⟨⟨hop, himm, hrm⟩, fun s => ?_⟩
  by_cases h : Nat.lcm s.work.sa s.work.sb < 2 ^ s.width
  · exact ⟨_, exec_lcm_of_lt rd ra rb h, fun _ => s.completeReg_completes rd _, fun hle => absurd h hle.not_gt⟩
  · exact ⟨_, exec_lcm_of_le rd ra rb (not_lt.1 h), fun hlt => absurd hlt h, fun _ => s.raise_completes _⟩

end Sys2Proof.Machine

/-! # `MODMUL`, `MODPOW` and `ENCRYPT` (spec/42_modmul_modpow.md R170, R172, R173, R175) -/

namespace Sys2Proof.Machine

theorem exec_modmul_of_eq_zero (rd ra rb rm : Reg) {s : State} (h : s.work.sm = 0) :
    exec (.modmul rd ra rb rm) s = .next (s.raise .invalidModulus) :=
  if_pos h

/-- Settles O31: the modulus is checked before the product is reduced by it. -/
theorem modmulCommand : Obligations.ModmulCommand := by
  intro rd ra rb rm
  obtain ⟨hop, himm, -⟩ := Laws.FieldsInPlace.modmul rd ra rb rm rfl
  refine ⟨⟨hop, himm⟩, fun s => ?_⟩
  by_cases h : s.work.sm = 0
  · exact ⟨_, exec_modmul_of_eq_zero rd ra rb rm h, fun _ => s.raise_completes _, fun hne => absurd h hne⟩
  · exact ⟨_, exec_modmul_of_ne_zero rd ra rb rm h, fun h0 => absurd h0 h, fun _ => s.completeReg_completes rd _⟩

theorem exec_modpow_of_eq_zero (rd ra rb rm : Reg) {s : State} (h : s.work.sm = 0) :
    exec (.modpow rd ra rb rm) s = .next (s.raise .invalidModulus) :=
  if_pos h

/-- Settles O32: the modulus is checked before square-and-multiply, which computes the power's residue. -/
theorem modpowCommand : Obligations.ModpowCommand := by
  intro rd ra rb rm
  obtain ⟨hop, himm, -⟩ := Laws.FieldsInPlace.modpow rd ra rb rm rfl
  refine ⟨⟨hop, himm⟩, fun s => ?_⟩
  by_cases h : s.work.sm = 0
  · exact ⟨_, exec_modpow_of_eq_zero rd ra rb rm h, fun _ => s.raise_completes _, fun hne => absurd h hne⟩
  · exact ⟨_, exec_modpow_of_ne_zero rd ra rb rm h, fun h0 => absurd h0 h, fun _ => s.completeReg_completes rd _⟩

theorem exec_encrypt_of_lt (rd ra rb rm : Reg) {s : State} (h : s.work.sa < s.work.sm) :
    exec (.encrypt rd ra rb rm) s = .next (s.completeReg rd (s.work.sa ^ s.work.sb % s.work.sm)) := by
  rw [← modPow_eq _ _ _ (Nat.zero_lt_of_lt h)]
  exact if_neg h.not_ge

/-- Settles O33: the range check refuses a zero modulus too, so square-and-multiply has one it can reduce by. -/
theorem encryptCommand : Obligations.EncryptCommand := by
  intro rd ra rb rm
  obtain ⟨hop, himm, -⟩ := Laws.FieldsInPlace.encrypt rd ra rb rm rfl
  refine ⟨⟨hop, himm⟩, fun s => ?_⟩
  by_cases h : s.work.sa < s.work.sm
  · exact ⟨_, exec_encrypt_of_lt rd ra rb rm h, fun hle => absurd hle h.not_ge, fun _ => s.completeReg_completes rd _⟩
  · exact ⟨_, exec_encrypt_of_le rd ra rb rm (not_lt.1 h), fun _ => s.raise_completes _, fun hlt => absurd hlt h⟩

/-! ### Decryption undoes encryption (R175) -/

/-- Fermat's little theorem for every base, a multiple of `p` included: an exponent that is 1 modulo `p - 1` changes no
residue modulo `p`. -/
theorem pow_modEq_self_of_prime {p k : Nat} (hp : p.Prime) (hpos : 0 < k) (hk : p - 1 ∣ k - 1) (a : Nat) :
    a ^ k ≡ a [MOD p] := by
  have h := Int.ModEq.pow_eq_pow hp hk hpos Nat.one_pos a
  rw [pow_one] at h
  exact_mod_cast h

/-- An exponent that is 1 modulo `lcm(p - 1, q - 1)` changes no residue modulo `p * q`: it changes none modulo either
prime. -/
theorem pow_modEq_self_of_two_primes {p q k : Nat} (hp : p.Prime) (hq : q.Prime) (hpq : p ≠ q)
    (hk : k % Nat.lcm (p - 1) (q - 1) = 1) (a : Nat) : a ^ k ≡ a [MOD p * q] := by
  have hpos : 0 < k := by
    rw [Nat.pos_iff_ne_zero]
    rintro rfl
    simp at hk
  have hdvd := Nat.dvd_sub_mod (n := Nat.lcm (p - 1) (q - 1)) k
  rw [hk] at hdvd
  rw [← Nat.modEq_and_modEq_iff_modEq_mul ((Nat.coprime_primes hp hq).2 hpq)]
  exact ⟨pow_modEq_self_of_prime hp hpos ((Nat.dvd_lcm_left _ _).trans hdvd) a,
    pow_modEq_self_of_prime hq hpos ((Nat.dvd_lcm_right _ _).trans hdvd) a⟩

/-- Settles O40: the two commands raise the plaintext to the power `e * d`, and the plaintext is its own residue. -/
theorem decryptionUndoesEncryption : Obligations.DecryptionUndoesEncryption := by
  intro p q e d rd ra rb rm rd' ra' rb' rm' s hp hq hpq hed hsb hsm hlt
  refine ⟨_, exec_encrypt_of_lt rd ra rb rm (hsm ▸ hlt), rfl, fun s' hsa' hsb' hsm' => ?_⟩
  have hne : s'.work.sm ≠ 0 := hsm' ▸ mul_ne_zero hp.ne_zero hq.ne_zero
  refine ⟨_, exec_modpow_of_ne_zero rd' ra' rb' rm' hne, ?_⟩
  rw [State.completeReg_reg_self] at hsa' ⊢
  calc s'.work.sa ^ s'.work.sb % s'.work.sm
      = (s.work.sa ^ e % (p * q)) ^ d % (p * q) := by rw [hsa', hsb', hsm', hsb, hsm]
    _ = s.work.sa ^ (e * d) % (p * q) := by rw [← Nat.pow_mod, ← pow_mul]
    _ = s.work.sa % (p * q) := pow_modEq_self_of_two_primes hp hq hpq hed s.work.sa
    _ = s.work.sa := Nat.mod_eq_of_lt hlt

end Sys2Proof.Machine

/-! # `MODINV` (spec/43_modinv.md R190 to R193) -/

namespace Sys2Proof.Machine

/-! ### The extended-Euclid chains stay in their registers (R192) -/

/-- The invariant of the loop, packaged once for every number of iterations. -/
theorem chainsStep_iterate_ok (a k : ℕ) {m : ℕ} (hm : 1 ≤ m) : ChainsOk a m (chainsStep^[k] (chainsStart a m)) :=
  Function.Iterate.rec (ChainsOk a m) (chainsStart_ok a m hm) (fun _ => chainsStep_ok) k

section
variable {a m : ℕ} {c : EuclidChains}

theorem ChainsOk.rem0_mul_t1_le (h : ChainsOk a m c) : c.rem0 * c.t1.natAbs ≤ m :=
  (Nat.le_add_right _ _).trans_eq h.sum

/-- The gcd divides `REM0`, which the sum weighs `T1` with. -/
theorem ChainsOk.t1_mul_gcd_le (h : ChainsOk a m c) : c.t1.natAbs * Nat.gcd a m ≤ m := by
  have hg : Nat.gcd a m ≤ c.rem0 := h.gcdEq ▸ Nat.gcd_le_left c.rem1 h.pos
  calc c.t1.natAbs * Nat.gcd a m
      ≤ c.t1.natAbs * c.rem0 := Nat.mul_le_mul_left _ hg
    _ = c.rem0 * c.t1.natAbs := Nat.mul_comm _ _
    _ ≤ m := h.rem0_mul_t1_le

/-- The quotient is at most `REM0`, so R192's bound holds with room to spare: the product stays within `m` itself. -/
theorem ChainsOk.quotient_mul_t1_le (h : ChainsOk a m c) : ((c.rem0 / c.rem1 : ℕ) * c.t1).natAbs ≤ m :=
  calc ((c.rem0 / c.rem1 : ℕ) * c.t1).natAbs
      = c.rem0 / c.rem1 * c.t1.natAbs := by rw [Int.natAbs_mul, Int.natAbs_natCast]
    _ ≤ c.rem0 * c.t1.natAbs := Nat.mul_le_mul_right _ (Nat.div_le_self _ _)
    _ ≤ m := h.rem0_mul_t1_le

theorem ChainsOk.rem0_eq_gcd (h : ChainsOk a m c) (hexit : c.rem1 = 0) : c.rem0 = Nat.gcd a m := by
  rw [← h.gcdEq, hexit, Nat.gcd_zero_right]

theorem ChainsOk.t1_eq_div_gcd (h : ChainsOk a m c) (hexit : c.rem1 = 0) : c.t1.natAbs = m / Nat.gcd a m := by
  have hsum := h.sum
  rw [hexit, Nat.zero_mul, Nat.add_zero] at hsum
  rw [← h.rem0_eq_gcd hexit]
  exact (Nat.div_eq_of_eq_mul_right h.pos hsum.symm).symm

end

/-- Settles O43: every iteration keeps `REM0 * |T1| + REM1 * |T0| = m`, which bounds both coefficients. -/
theorem coefficientChainStaysInBounds : Obligations.CoefficientChainStaysInBounds := by
  intro a m k hm
  have h := chainsStep_iterate_ok a k hm
  exact ⟨h.congr0, h.congr1, h.grows, h.t1_mul_gcd_le, fun _ => h.quotient_mul_t1_le.trans (by omega),
    fun hexit => ⟨h.rem0_eq_gcd hexit, h.t1_eq_div_gcd hexit⟩⟩

/-! ### The command (R191, R193) -/

section
variable (rd ra rm : Reg) {s : State}

theorem exec_modinv_of_eq_zero (h : s.work.sm = 0) : exec (.modinv rd ra rm) s = .next (s.raise .invalidModulus) :=
  if_pos h

theorem exec_modinv_of_none (hm : s.work.sm ≠ 0) (h : modInv s.work.sa s.work.sm = none) :
    exec (.modinv rd ra rm) s = .next (s.raise .noInverseExists) := by
  simp only [exec, execModinv, if_neg hm, h]

theorem exec_modinv_of_some {x : Nat} (hm : s.work.sm ≠ 0) (h : modInv s.work.sa s.work.sm = some x) :
    exec (.modinv rd ra rm) s = .next (s.completeReg rd x) := by
  simp only [exec, execModinv, if_neg hm, h]

end

/-- Settles O34: the modulus decides first (0, 1, at least 2), and from 2 on the gcd decides whether the chains leave an
inverse. -/
theorem modinvCommand : Obligations.ModinvCommand := by
  intro rd ra rm
  obtain ⟨hop, himm, -⟩ := Laws.FieldsInPlace.modinv rd ra rm rfl
  have hrb := encodeFields_rb 0x06 0 rd ra 0 rm (by decide) (by decide)
  refine ⟨⟨hop, himm, hrb⟩, fun s => ?_⟩
  obtain h0 | h1 | h2 : s.work.sm = 0 ∨ s.work.sm = 1 ∨ 2 ≤ s.work.sm := by omega
  · exact ⟨_, exec_modinv_of_eq_zero rd ra rm h0, fun _ => s.raise_completes _, by omega, by omega, by omega⟩
  · have hinv : modInv s.work.sa s.work.sm = some 0 := h1 ▸ modInv_one s.work.sa
    exact ⟨_, exec_modinv_of_some rd ra rm (by omega) hinv, by omega, fun _ => s.completeReg_completes rd 0,
      by omega, by omega⟩
  · by_cases hg : Nat.gcd s.work.sa s.work.sm = 1
    · obtain ⟨x, hinv, hlt, hone⟩ := modInv_some h2 hg
      exact ⟨_, exec_modinv_of_some rd ra rm (by omega) hinv, by omega, by omega, fun _ hne => absurd hg hne,
        fun _ _ => ⟨x, s.completeReg_completes rd x, hlt, hone⟩⟩
    · exact ⟨_, exec_modinv_of_none rd ra rm (by omega) (modInv_none h2 hg), by omega, by omega,
        fun _ _ => s.raise_completes _, fun _ h => absurd h hg⟩

end Sys2Proof.Machine

/-! # `MRTEST`, the Miller–Rabin tester (spec/44_mrtest.md R200 to R208) -/

namespace Sys2Proof.Machine

/-! ### The command's two kinds of event (R200) -/

theorem exec_mrtest_of_start (rm : Reg) (rounds : Nat) {s : State} (h : ∀ ok v, s.rng ≠ .answered ok v) :
    exec (.mrtest rm rounds) s = .next (s.startTest rounds) := by
  cases hport : s.rng with
  | answered ok v => exact absurd hport (h ok v)
  | _ => simp only [exec, execMrtest, hport]

theorem exec_mrtest_of_answered (rm : Reg) (rounds : Nat) {s : State} {ok : Bool} {a : Nat}
    (h : s.rng = .answered ok a) : exec (.mrtest rm rounds) s = .next (s.resumeTest ok a) := by
  simp only [exec, execMrtest, h]

/-! ### The first event (R201, R202, R208) -/

theorem preScreen_of_le_one {n : Nat} (h : n ≤ 1) : preScreen n = some false := if_pos h

theorem preScreen_of_two_or_three {n : Nat} (h : n = 2 ∨ n = 3) : preScreen n = some true := by
  rcases h with rfl | rfl <;> rfl

theorem preScreen_of_even {n : Nat} (hn : 4 ≤ n) (heven : n % 2 = 0) : preScreen n = some false := by
  rw [preScreen, if_neg (by omega), if_neg (by omega), if_pos heven]

theorem preScreen_of_odd {n : Nat} (hn : 5 ≤ n) (hodd : n % 2 = 1) : preScreen n = none := by
  rw [preScreen, if_neg (by omega), if_neg (by omega), if_neg (by omega)]

theorem State.startTest_of_some {s : State} {b : Bool} (h : preScreen s.work.sm = some b) (rounds : Nat) :
    s.startTest rounds = s.completeVerdict b := by
  simp only [State.startTest, h]

theorem State.startTest_of_none {s : State} (h : preScreen s.work.sm = none) (rounds : Nat) :
    s.startTest rounds = s.nextRound (decompose s.work.sm).1 (decompose s.work.sm).2 rounds := by
  simp only [State.startTest, h]

theorem State.startTest_completes {s : State} {b : Bool} (h : preScreen s.work.sm = some b) (rounds : Nat) :
    CompletesVerdict s (s.startTest rounds) b := by
  rw [State.startTest_of_some h]
  exact s.completeVerdict_completes b

/-- Settles O35: the pre-screen decides, or leaves an odd candidate from 5 on, for which the first round begins if there
is one. -/
theorem mrtestFirstEvent : Obligations.MrtestFirstEvent := by
  intro rm rounds s hport
  refine ⟨_, exec_mrtest_of_start rm rounds hport, fun h => State.startTest_completes (preScreen_of_le_one h) _,
    fun h => State.startTest_completes (preScreen_of_two_or_three h) _,
    fun h heven => State.startTest_completes (preScreen_of_even h heven) _,
    fun h hodd hzero => ?_, fun h hodd k hk => ?_⟩
  · subst hzero
    rw [State.startTest_of_none (preScreen_of_odd h hodd)]
    exact s.completeVerdict_completes true
  · subst hk
    rw [State.startTest_of_none (preScreen_of_odd h hodd)]
    exact s.requestWitness_asks _ _ k (decompose_split _) (decompose_odd _ (by omega))

/-! ### One round (R203, R204) -/

theorem badWitness_iff {n : Nat} {ok : Bool} {a : Nat} : badWitness n ok a = true ↔ ok = false ∨ a < 2 ∨ n - 2 < a := by
  simp only [badWitness, Bool.or_eq_true, Bool.not_eq_true', decide_eq_true_eq, or_assoc]

theorem badWitness_eq_false_iff {n : Nat} {ok : Bool} {a : Nat} :
    badWitness n ok a = false ↔ ok = true ∧ 2 ≤ a ∧ a ≤ n - 2 := by
  rw [← Bool.not_eq_true, badWitness_iff, not_or, not_or, Bool.not_eq_false, not_lt, not_lt]

theorem State.resumeTest_of_bad {s : State} {ok : Bool} {a : Nat} (h : badWitness s.work.sm ok a = true) :
    s.resumeTest ok a = s.raise .rngFailure :=
  if_pos h

section
variable {s : State} {ok : Bool} {a : Nat} (h : badWitness s.work.sm ok a = false)
include h

theorem State.resumeTest_of_pass (hround : roundPasses s.work.sm s.work.d s.work.s a = true) :
    s.resumeTest ok a = s.nextRound s.work.d s.work.s s.work.rnd := by
  simp only [State.resumeTest, h, hround, Bool.false_eq_true, if_false, if_true]

theorem State.resumeTest_of_composite (hround : roundPasses s.work.sm s.work.d s.work.s a = false) :
    s.resumeTest ok a = s.completeVerdict false := by
  simp only [State.resumeTest, h, hround, Bool.false_eq_true, if_false]

end

/-- R202: an odd candidate is halved at least once. -/
theorem one_le_of_split {n d e : Nat} (hodd : n % 2 = 1) (hsplit : d * 2 ^ e = n - 1) (hd : d % 2 = 1) :
    1 ≤ e := by
  rw [Nat.one_le_iff_ne_zero]
  rintro rfl
  omega

/-- Settles O36: the answer's range is checked first, and the engine's round on a good one is the strong-probable-prime
condition. -/
theorem mrtestRoundEvent : Obligations.MrtestRoundEvent := by
  intro rm rounds s ok a hport hlarge hodd hsplit hd
  have hround := roundPasses_iff s.work.sm s.work.d s.work.s a (by omega) (one_le_of_split hodd hsplit hd)
  refine ⟨_, exec_mrtest_of_answered rm rounds hport, fun hbad => ?_, fun hok hlow hhigh => ?_⟩
  · rw [State.resumeTest_of_bad (badWitness_iff.2 hbad)]
    exact s.raise_completes _
  · have hgood := badWitness_eq_false_iff.2 ⟨hok, hlow, hhigh⟩
    refine ⟨fun hfails => ?_, fun hpasses hlast => ?_, fun hpasses k hleft => ?_⟩
    · rw [State.resumeTest_of_composite hgood (Bool.eq_false_iff.2 (mt hround.1 hfails))]
      exact s.completeVerdict_completes false
    · rw [State.resumeTest_of_pass hgood (hround.2 hpasses), hlast]
      exact s.completeVerdict_completes true
    · rw [State.resumeTest_of_pass hgood (hround.2 hpasses), hleft]
      exact s.requestWitness_asks _ _ k hsplit hd

/-! ### The whole command on answers that keep the source's contract (R205, R207; 10_state R52) -/

theorem badWitness_of_contract {n : Nat} {a : Answer} (h : ContractAnswer n a) : badWitness n a.ok a.v = false :=
  badWitness_eq_false_iff.2 h

/-- With a contract answer for each round, the verdict is whether every round passes. -/
theorem mrRounds_of_contract {n : Nat} (d e : Nat) {r : Nat} {as : List Answer}
    (hcontract : ∀ a ∈ as, ContractAnswer n a) (hlen : r ≤ as.length) :
    (mrRounds n d e r as).1 = .verdict ((as.take r).all fun a => roundPasses n d e a.v) := by
  induction r generalizing as with
  | zero => simp [mrRounds]
  | succ r ih =>
    cases as with
    | nil => simp at hlen
    | cons a as =>
      obtain ⟨ha, has⟩ := List.forall_mem_cons.1 hcontract
      cases hround : roundPasses n d e a.v with
      | false => simp [mrRounds, badWitness_of_contract ha, hround]
      | true => simpa [mrRounds, badWitness_of_contract ha, hround] using ih has (Nat.le_of_succ_le_succ hlen)

theorem mrTest_of_odd {n : Nat} (hn : 5 ≤ n) (hodd : n % 2 = 1) (rounds : Nat) (as : List Answer) :
    mrTest n rounds as = mrRounds n (decompose n).1 (decompose n).2 rounds as := by
  simp only [mrTest, preScreen_of_odd hn hodd]

/-- Settles O38: the verdict is the conjunction of the rounds, each of which is the strong-probable-prime condition. -/
theorem verdictIsWhetherEveryWitnessPasses : Obligations.VerdictIsWhetherEveryWitnessPasses := by
  intro n rounds as hn hodd hcontract hlen
  have he := one_le_of_split hodd (decompose_split n) (decompose_odd n (by omega))
  rw [mrTest_of_odd hn hodd, mrRounds_of_contract _ _ hcontract hlen]
  constructor
  · cases (as.take rounds).all fun a => roundPasses n (decompose n).1 (decompose n).2 a.v with
    | true => exact .inl rfl
    | false => exact .inr rfl
  · simp only [MrResult.verdict.injEq, List.all_eq_true, roundPasses_iff _ _ _ _ (by omega : 3 ≤ n) he]

/-! ### Primes (R207) -/

/-- Modulo a prime only 1 and -1 have the square 1. -/
theorem mod_eq_of_sq_mod_eq_one {p x : Nat} (hp : p.Prime) (h : x ^ 2 % p = 1) : x % p = 1 ∨ x % p = p - 1 := by
  have hsq : (x % p) ^ 2 % p = 1 := (Nat.pow_mod x 2 p).symm.trans h
  have hlt := Nat.mod_lt x hp.pos
  have hne : x % p ≠ 0 := fun h0 => by simp [h0] at hsq
  have hdvd := Nat.dvd_sub_mod (n := p) ((x % p) ^ 2)
  rw [hsq, ← one_pow 2, Nat.sq_sub_sq, hp.dvd_mul] at hdvd
  rcases hdvd with hadd | hsub
  · have := Nat.le_of_dvd (by omega) hadd
    omega
  · have := Nat.eq_zero_of_dvd_of_lt hsub (by omega)
    omega

/-- From a power that is 1, one square root after another is taken until it is `p - 1`, or the odd power is reached. -/
theorem passesRound_of_pow_mod_eq_one {p d e a : Nat} (hp : p.Prime) (h : a ^ (d * 2 ^ e) % p = 1) :
    PassesRound p d e a := by
  induction e with
  | zero => exact .inl (by simpa using h)
  | succ e ih =>
    rw [pow_succ, ← mul_assoc, pow_mul] at h
    rcases mod_eq_of_sq_mod_eq_one hp h with hone | hminus
    · obtain hd | ⟨j, hj, hpow⟩ := ih hone
      · exact .inl hd
      · exact .inr ⟨j, hj.trans (Nat.lt_succ_self e), hpow⟩
    · exact .inr ⟨e, Nat.lt_succ_self e, hminus⟩

/-- R207: no witness in the range speaks against a prime, by Fermat's little theorem. -/
theorem prime_passesRound {p d e a : Nat} (hp : p.Prime) (hsplit : d * 2 ^ e = p - 1) (hlow : 0 < a) (hhigh : a < p) :
    PassesRound p d e a := by
  have hfermat := Nat.ModEq.pow_totient (Nat.coprime_of_lt_prime hlow.ne' hhigh hp).symm
  rw [Nat.totient_prime hp, ← hsplit] at hfermat
  exact passesRound_of_pow_mod_eq_one hp (Nat.mod_eq_of_modEq hfermat hp.one_lt)

/-- Where every witness in the range passes its round, no sequence of answers gives the verdict 0. -/
theorem mrRounds_ne_composite {n d e : Nat} (h : ∀ a, 2 ≤ a → a ≤ n - 2 → roundPasses n d e a = true) (r : Nat)
    (as : List Answer) : (mrRounds n d e r as).1 ≠ .verdict false := by
  induction r generalizing as with
  | zero => simp [mrRounds]
  | succ r ih =>
    cases as with
    | nil => simp [mrRounds]
    | cons a as =>
      cases hbad : badWitness n a.ok a.v with
      | true => simp [mrRounds, hbad]
      | false =>
        obtain ⟨-, hlow, hhigh⟩ := badWitness_eq_false_iff.1 hbad
        simpa [mrRounds, hbad, h _ hlow hhigh] using ih as

theorem mrTest_ne_composite_of_prime {n : Nat} (hp : n.Prime) (hn : 5 ≤ n) (hodd : n % 2 = 1) (rounds : Nat)
    (as : List Answer) : (mrTest n rounds as).1 ≠ .verdict false := by
  have hsplit := decompose_split n
  have he := one_le_of_split hodd hsplit (decompose_odd n hp.two_le)
  rw [mrTest_of_odd hn hodd]
  exact mrRounds_ne_composite (fun a hlow hhigh =>
    (roundPasses_iff _ _ _ _ (by omega) he).2 (prime_passesRound hp hsplit (by omega) (by omega))) _ _

/-- Settles O39: 2 and 3 are the pre-screen's; every other prime is odd, and its rounds cannot show it composite. -/
theorem primesAreNeverRejected : Obligations.PrimesAreNeverRejected := by
  intro n rounds as hp
  by_cases hsmall : n = 2 ∨ n = 3
  · have hverdict : (mrTest n rounds as).1 = .verdict true := by simp only [mrTest, preScreen_of_two_or_three hsmall]
    exact ⟨by simp [hverdict], fun _ _ => hverdict⟩
  · have hodd : n % 2 = 1 := hp.eq_two_or_odd.resolve_left (mt .inl hsmall)
    have hn : 5 ≤ n := by
      have := hp.two_le
      omega
    have hnever := mrTest_ne_composite_of_prime hp hn hodd rounds as
    exact ⟨hnever, fun hcontract hlen =>
      (verdictIsWhetherEveryWitnessPasses n rounds as hn hodd hcontract hlen).1.resolve_right hnever⟩

/-! ### A whole run, event by event (R200, R203, R205) -/

/-- `s` once the answer `(ok, v)` to its request is taken off its inbox. -/
def State.answered (s : State) (rest : List Input) (ok : Bool) (v : Nat) : State :=
  { s with phase := .run, rng := .answered ok v, inbox := rest }

/-- The outside's part of `testScript` after the engine's first turn: each answer, then the turn it gives the engine. -/
def answerScript : Nat → List Answer → List Input
  | _, [] => []
  | k, a :: as => .rngAnswer k a.ok a.v :: .engine :: answerScript (k + 1) as

theorem testScript_eq (k : Nat) (as : List Answer) : testScript k as = .engine :: answerScript k as := by
  induction as generalizing k with
  | nil => rfl
  | cons a as ih => rw [testScript, ih, answerScript]

theorem State.engineTurn_of_idle {s : State} (hidle : s.phase = .idle) : s.engineTurn = .next s := by
  simp only [State.engineTurn, hidle]

theorem step_engine_of_idle {s : State} {rest : List Input} (hidle : s.phase = .idle)
    (hin : s.inbox = .engine :: rest) : step s = .next (s.taken rest s.busResp) := by
  rw [step_event hin]
  exact State.engineTurn_of_idle (s := s.taken rest s.busResp) hidle

/-- An answer when no request is outstanding is ignored (10_state R52). -/
theorem step_answer_of_idle {s : State} {k v : Nat} {ok : Bool} {rest : List Input} (hidle : s.phase = .idle)
    (hin : s.inbox = .rngAnswer k ok v :: rest) : step s = .next (s.taken rest s.busResp) := by
  rw [step_event hin]
  simp [State.perform, State.deliverAnswer, hidle, State.taken]

/-- An idle engine leaves all that is left of the script without effect. -/
theorem run_answerScript_of_idle {as : List Answer} {k : Nat} {s : State} {rest : List Input} (hidle : s.phase = .idle)
    (hin : s.inbox = answerScript k as ++ rest) :
    Sys2Proof.core.run (2 * as.length) s = .next (s.taken rest s.busResp) := by
  induction as generalizing k s with
  | nil =>
    obtain rfl : s.inbox = rest := hin
    rfl
  | cons a as ih =>
    have hanswer := step_answer_of_idle hidle hin
    have hturn := step_engine_of_idle (s := s.taken (.engine :: (answerScript (k + 1) as ++ rest)) s.busResp) hidle rfl
    calc Sys2Proof.core.run (2 * as.length + 2) s
        = Sys2Proof.core.run (2 * as.length) (s.taken (answerScript (k + 1) as ++ rest) s.busResp) :=
          (run_succ hanswer _).trans (run_succ hturn _)
      _ = .next (s.taken rest s.busResp) := ih hidle rfl

/-- The outstanding request's answer is taken, as many bits of it as the port has (10_state R51, R52). -/
theorem step_answer_of_waiting {s : State} {v : Nat} {ok : Bool} {rest : List Input} (hwaits : s.phase = .waitRng)
    (hin : s.inbox = .rngAnswer s.rngSeq ok v :: rest) :
    step s = .next (s.answered rest ok (v % 2 ^ s.width)) := by
  rw [step_event hin]
  exact congrArg Host.Outcome.next (if_pos (And.intro hwaits rfl))

/-- The answer to the outstanding request and the engine's turn after it: one round (R203). -/
theorem run_answer {s : State} {rm : Reg} {rounds v : Nat} {ok : Bool} {rest : List Input} (hwaits : s.phase = .waitRng)
    (hi : decode s.work.ir = .ok (.mrtest rm rounds)) (hv : v < 2 ^ s.width)
    (hin : s.inbox = .rngAnswer s.rngSeq ok v :: .engine :: rest) (k : Nat) :
    Sys2Proof.core.run (k + 2) s = Sys2Proof.core.run k ((s.answered rest ok v).resumeTest ok v) := by
  have hanswer : step s = .next (s.answered (.engine :: rest) ok v) := by
    rw [step_answer_of_waiting hwaits hin, Nat.mod_eq_of_lt hv]
  have hturn : step (s.answered (.engine :: rest) ok v) = .next ((s.answered rest ok v).resumeTest ok v) :=
    (step_engine_of_command (s := s.answered (.engine :: rest) ok v) rfl rfl hi).trans
      (exec_mrtest_of_answered rm rounds (s := s.answered rest ok v) rfl)
  exact (run_succ hanswer _).trans (run_succ hturn k)

/-! ### Where a run ends -/

/-- `STATUS`, the phase and the port where a test begun in `s` with this result has left `t`. -/
def MrResult.EndsIn : MrResult → State → State → Prop
  | .verdict b, s, t => t.phase = .idle ∧ t.status = { s.status.succeeded with pp := b }
  | .failed, s, t => t.phase = .idle ∧ t.status = s.status.failed .rngFailure
  | .waiting, s, t => t.phase = .waitRng ∧ t.rng = .requested 2 (s.work.sm - 2) ∧ t.status = s.status

theorem MrResult.EndsIn.cmderr {result : MrResult} {s t : State} (h : result.EndsIn s t) :
    t.status.cmderr = s.status.cmderr := by
  cases result with
  | verdict b => exact (congrArg Status.cmderr h.2).trans rfl
  | failed => exact (congrArg Status.cmderr h.2).trans rfl
  | waiting => exact congrArg Status.cmderr h.2.2

/-- `t` is where a test begun in `s` ends with this result, `rest` being still to come. -/
structure TestEnds (s t : State) (rest : List Input) (result : MrResult) : Prop where
  regs : t.regs = s.regs
  ctrl : t.ctrl = s.ctrl
  inbox : t.inbox = rest
  ending : result.EndsIn s t

/-- From `u` on, the run over the answers `as` ends the test begun in `s` with this result. -/
def RunEnds (s u : State) (as : List Answer) (rest : List Input) (result : MrResult) : Prop :=
  ∃ t, Sys2Proof.core.run (2 * as.length) u = .next t ∧ TestEnds s t rest result

/-- The end of a test speaks of the registers, `CTRL`, `STATUS` and the candidate it began with. -/
theorem RunEnds.of_agree {s s' u : State} {as : List Answer} {rest : List Input} {result : MrResult}
    (h : RunEnds s' u as rest result) (hregs : s'.regs = s.regs) (hctrl : s'.ctrl = s.ctrl)
    (hstatus : s'.status = s.status) (hsm : s'.work.sm = s.work.sm) : RunEnds s u as rest result := by
  obtain ⟨t, hrun, hends⟩ := h
  refine ⟨t, hrun, hends.regs.trans hregs, hends.ctrl.trans hctrl, hends.inbox, ?_⟩
  have hending := hends.ending
  cases result <;> simpa only [MrResult.EndsIn, hstatus, hsm] using hending

/-! ### The events of a test in a run -/

section
variable {s : State} {k : Nat} {as : List Answer} {rest : List Input} (hin : s.inbox = answerScript k as ++ rest)
include hin

theorem runEnds_completeVerdict (b : Bool) : RunEnds s (s.completeVerdict b) as rest (.verdict b) :=
  ⟨_, run_answerScript_of_idle rfl hin, rfl, rfl, rfl, rfl, rfl⟩

theorem runEnds_raise : RunEnds s (s.raise .rngFailure) as rest .failed :=
  ⟨_, run_answerScript_of_idle rfl hin, rfl, rfl, rfl, rfl, rfl⟩

/-- One round with the answer `a` is one round of `mrRounds`, where the rounds after it are. -/
theorem runEnds_resumeTest {a : Answer}
    (hnext : RunEnds s (s.nextRound s.work.d s.work.s s.work.rnd) as rest
      (mrRounds s.work.sm s.work.d s.work.s s.work.rnd as).1) :
    RunEnds s (s.resumeTest a.ok a.v) as rest
      (mrRounds s.work.sm s.work.d s.work.s (s.work.rnd + 1) (a :: as)).1 := by
  rw [mrRounds]
  cases hbad : badWitness s.work.sm a.ok a.v with
  | true =>
    rw [State.resumeTest_of_bad hbad]
    exact runEnds_raise hin
  | false =>
    cases hround : roundPasses s.work.sm s.work.d s.work.s a.v with
    | true =>
      rw [State.resumeTest_of_pass hbad hround]
      exact hnext
    | false =>
      rw [State.resumeTest_of_composite hbad hround]
      exact runEnds_completeVerdict hin false

end

section
variable {s : State} {rm : Reg} {rounds : Nat} {as : List Answer} {rest : List Input}
  (hi : decode s.work.ir = .ok (.mrtest rm rounds)) (hfits : ∀ a ∈ as, a.v < 2 ^ s.width)
  (hin : s.inbox = answerScript (s.rngSeq + 1) as ++ rest)
include hi hfits hin

/-- The round loop on the machine is the one of `mrRounds`: one answer and one turn for each round. -/
theorem runEnds_nextRound (d e rnd : Nat) :
    RunEnds s (s.nextRound d e rnd) as rest (mrRounds s.work.sm d e rnd as).1 := by
  induction as generalizing s rnd with
  | nil =>
    cases rnd with
    | zero => exact runEnds_completeVerdict hin true
    | succ r => exact ⟨_, rfl, rfl, rfl, hin, rfl, rfl, rfl⟩
  | cons a as ih =>
    cases rnd with
    | zero => exact runEnds_completeVerdict hin true
    | succ r =>
      obtain ⟨ha, has⟩ := List.forall_mem_cons.1 hfits
      have hround := run_answer (s := s.requestWitness d e r) rfl hi ha hin (2 * as.length)
      have hnext := ih (s := (s.requestWitness d e r).answered (answerScript (s.rngSeq + 1 + 1) as ++ rest) a.ok a.v)
        hi has rfl r
      obtain ⟨t, hrun, hends⟩ := (runEnds_resumeTest rfl (a := a) hnext).of_agree (s := s) rfl rfl rfl rfl
      exact ⟨t, hround.trans hrun, hends⟩

/-- The first event, and the rounds after it. -/
theorem runEnds_startTest : RunEnds s (s.startTest rounds) as rest (mrTest s.work.sm rounds as).1 := by
  rw [mrTest]
  cases hscreen : preScreen s.work.sm with
  | some b =>
    rw [State.startTest_of_some hscreen]
    exact runEnds_completeVerdict hin b
  | none =>
    rw [State.startTest_of_none hscreen]
    exact runEnds_nextRound hi hfits hin _ _ _

end

/-- The script's first entry is the engine's turn, which starts the test. -/
theorem step_testScript_of_justAccepted {s : State} {rm : Reg} {rounds : Nat} (h : JustAccepted s (.mrtest rm rounds))
    (k : Nat) (as : List Answer) :
    step (s.withScript (testScript k as)) = .next (State.startTest (s.withScript (answerScript k as)) rounds) := by
  have hport (ok : Bool) (v : Nat) : s.rng ≠ .answered ok v := by simp [h.port]
  have hin : (s.withScript (testScript k as)).inbox = .engine :: (answerScript k as ++ s.inbox) :=
    congrArg (· ++ s.inbox) (testScript_eq k as)
  exact (step_engine_of_command hin h.runs h.command).trans
    (exec_mrtest_of_start rm rounds (s := s.withScript (answerScript k as)) hport)

/-- Settles O37: the engine's first turn starts the test, and each answer with the turn after it is one round. -/
theorem mrtestRunMatchesWholeCommand : Obligations.MrtestRunMatchesWholeCommand := by
  intro s rm rounds as haccepted hfits
  have hstart := step_testScript_of_justAccepted haccepted (s.rngSeq + 1) as
  obtain ⟨t, hrun, hregs, hctrl, hinbox, hending⟩ :=
    runEnds_startTest (s := s.withScript (answerScript (s.rngSeq + 1) as)) haccepted.command hfits rfl
  refine ⟨t, (run_succ hstart _).trans hrun, State.reg_congr hregs, hctrl, hending.cmderr, hinbox, ?_⟩
  revert hending
  rw [State.withScript_work]
  cases (mrTest s.work.sm rounds as).1 with
  | verdict b =>
    rintro ⟨hidle, hstatus⟩
    rw [hstatus]
    exact ⟨hidle, rfl, rfl, rfl, rfl⟩
  | failed =>
    rintro ⟨hidle, hstatus⟩
    rw [hstatus]
    exact ⟨hidle, rfl, rfl, rfl, rfl⟩
  | waiting => exact id

end Sys2Proof.Machine

/-! # The host procedures (spec/46_host_procedures.md R221 to R227) -/

namespace Sys2Proof.Driver

open Sys2Proof.Machine

/-! ### The codec (R226, R227) -/

theorem decodeBytes_eq_none_iff {v n : Nat} : decodeBytes v n = none ↔ 256 ^ n ≤ v := by
  simp [decodeBytes]

theorem encodeBytes_concat (b : List Byte) (x : Byte) : encodeBytes (b ++ [x]) = encodeBytes b * 256 + x.toNat := by
  simp [encodeBytes]

/-- The lowest byte comes last: one byte more of width decodes it after the rest. -/
theorem decodeBytes_succ (v n : Nat) :
    decodeBytes v (n + 1) = (decodeBytes (v / 256) n).map (· ++ [BitVec.ofNat 8 v]) := by
  have hguard : 256 ^ (n + 1) ≤ v ↔ 256 ^ n ≤ v / 256 := by
    rw [Nat.le_div_iff_mul_le (by decide), pow_succ]
  have hbyte : ∀ j < n, v / 256 ^ (n - j) = v / 256 / 256 ^ (n - 1 - j) := fun j hj => by
    rw [Nat.div_div_eq_div_mul, ← pow_succ', show n - 1 - j + 1 = n - j by omega]
  simp only [decodeBytes, hguard, Nat.add_sub_cancel, List.range_succ, List.map_append]
  split
  · rfl
  · simpa using fun j hj => congrArg (BitVec.ofNat 8) (hbyte j hj)

theorem decodeBytes_encodeBytes (b : List Byte) : decodeBytes (encodeBytes b) b.length = some b := by
  induction b using List.reverseRecOn with
  | nil => rfl
  | append_singleton b x ih =>
    have hrest : (encodeBytes b * 256 + x.toNat) / 256 = encodeBytes b := by omega
    have hlast : BitVec.ofNat 8 (encodeBytes b * 256 + x.toNat) = x := BitVec.eq_of_toNat_eq (by simp; omega)
    rw [encodeBytes_concat, List.length_append, List.length_singleton, decodeBytes_succ, hrest, ih, hlast]
    rfl

/-- Settles O51: byte by byte from the last one, and the guard of `decode` is the error's condition. -/
theorem codecRoundTrip : Obligations.CodecRoundTrip :=
  ⟨decodeBytes_encodeBytes, fun _ _ => decodeBytes_eq_none_iff⟩

/-! ### The prime generator (R221, R222) -/

/-- What is returned is a candidate of an admitted bit length, so it is odd and has exactly `k` bits. -/
theorem generatePrime_shape {w k attempts : Nat} {draws : List Nat} {as : List Answer}
    {x : Nat × List Nat × List Answer} (h : generatePrime w k attempts draws as = .ok x) :
    2 ^ (k - 1) + 1 ≤ x.1 ∧ x.1 ≤ 2 ^ k - 1 ∧ x.1 % 2 = 1 := by
  obtain ⟨hk, -, hsearch⟩ := generatePrime_ok h
  obtain ⟨⟨draw, -, hc⟩, -⟩ := searchPrime_ok hsearch
  exact hc ▸ candidate_shape hk draw

/-- Settles O52: the bit length is admitted or the call fails, and what the search finds is a candidate. -/
theorem generatedPrimesHaveTheShape : Obligations.GeneratedPrimesHaveTheShape := by
  refine fun w k attempts draws as => ⟨fun hk => if_neg hk, fun c rest bs h => ?_⟩
  obtain ⟨hk, hw, hsearch⟩ := generatePrime_ok h
  obtain ⟨hlow, hhigh, hodd⟩ := generatePrime_shape h
  have hfits : c < 2 ^ w := calc
    c ≤ 2 ^ k - 1 := hhigh
    _ < 2 ^ k := Nat.sub_one_lt_of_lt (Nat.two_pow_pos k)
    _ ≤ 2 ^ w := Nat.pow_le_pow_right (by decide) hw
  exact ⟨hk, hw, hlow, hhigh, hodd, hfits, searchPrime_ok hsearch⟩

/-! ### The key generator (R224, R225) -/

/-- A returned key is derived from two numbers that the prime generator returned one after the other. -/
theorem generateKeypair_ok {w k attempts retries : Nat} {draws : List Nat} {as : List Answer} {key : KeyMaterial}
    (h : generateKeypair w k attempts retries draws as = .ok key) :
    ∃ ds bs, ∃ x y : Nat × List Nat × List Answer, generatePrime w k attempts ds bs = .ok x ∧
      generatePrime w k attempts x.2.1 x.2.2 = .ok y ∧ deriveKeys w k x.1 y.1 = .ok (some key) := by
  induction retries generalizing draws as with
  | zero => cases h
  | succ retries ih =>
    unfold generateKeypair at h
    split at h
    · cases h
    · rename_i hfirst
      split at h
      · cases h
      · rename_i hsecond
        split at h
        · cases h
        · rename_i hkey
          cases h
          exact ⟨draws, as, _, _, hfirst, hsecond, hkey⟩
        · exact ih h

/-- The totient of two odd primes is at least 2, where `MODINV` of a coprime number is a true inverse. -/
theorem two_le_lcm_pred {a b : Nat} (ha : 3 ≤ a) (hb : 3 ≤ b) : 2 ≤ Nat.lcm (a - 1) (b - 1) :=
  calc 2 ≤ a - 1 := by omega
    _ ≤ Nat.lcm (a - 1) (b - 1) :=
      Nat.le_of_dvd (Nat.lcm_pos (by omega) (by omega)) (Nat.dvd_lcm_left _ _)

/-- The inverse that `MODINV` leaves, read from its answer. -/
theorem modInv_spec {a m v : Nat} (hm : 2 ≤ m) (hg : Nat.gcd a m = 1) (h : modInv a m = some v) :
    v < m ∧ a * v % m = 1 := by
  obtain ⟨x, hx, hlt, hone⟩ := modInv_some hm hg
  obtain rfl : x = v := Option.some.inj (hx.symm.trans h)
  exact ⟨hlt, hone⟩

/-- Settles O53: the primes' shape gives the bounds, and R225's guards the equations; with a totient of at least 2 the
private exponent is `MODINV`'s inverse. -/
theorem keyMaterialIsConsistent : Obligations.KeyMaterialIsConsistent := by
  intro w k attempts retries draws as key h
  obtain ⟨_, _, x, y, hfirst, hsecond, hkey⟩ := generateKeypair_ok h
  obtain ⟨hne, hroom, ha, hb, hmod, htot, hfits, hexp, hcop, hinv⟩ := deriveKeys_ok hkey
  obtain ⟨hk, -, -⟩ := generatePrime_ok hfirst
  obtain ⟨hlowA, hhighA, -⟩ := generatePrime_shape hfirst
  obtain ⟨hlowB, hhighB, -⟩ := generatePrime_shape hsecond
  rw [← ha] at hlowA hhighA hne hmod htot
  rw [← hb] at hlowB hhighB hne hmod htot
  have hfour : 4 ≤ 2 ^ k := Nat.pow_le_pow_right (n := 2) (by decide) hk
  have htwo : 2 ≤ 2 ^ (k - 1) := Nat.le_self_pow (by omega) 2
  have hltA : key.primeA < 2 ^ k := by omega
  have hltB : key.primeB < 2 ^ k := by omega
  have hmodulus : key.modulus < 2 ^ w := calc
    key.modulus = key.primeA * key.primeB := hmod
    _ < 2 ^ k * 2 ^ k := Nat.mul_lt_mul'' hltA hltB
    _ = 2 ^ (2 * k) := by rw [← pow_add, two_mul]
    _ ≤ 2 ^ w := Nat.pow_le_pow_right (by decide) hroom
  have hge : 2 ≤ key.totient := htot ▸ two_le_lcm_pred (by omega) (by omega)
  obtain ⟨hlt, hone⟩ := modInv_spec hge hcop hinv
  rw [hexp, Nat.mod_eq_of_lt hge]
  exact ⟨hroom, hlowA, hltA, hlowB, hltB, hne, hmod, hmodulus, htot, hfits, rfl, hcop, hlt, hone⟩

end Sys2Proof.Driver

/-! # Errors, interrupts and waiting (spec/60_exceptions.md R245 to R258) -/

namespace Sys2Proof.Machine

/-! ### What a completion leaves (R245, R246, R253) -/

/-- A command's event that ends in `IDLE` is a completion. -/
theorem EngineEvent.completionFrame {i : Instr} {s t : State} (h : EngineEvent i s t) (hidle : t.phase = .idle) :
    CompletionFrame s t := by
  cases h with
  | result rd v _ => exact (s.completeReg_completes rd v).frame
  | verdict b _ => exact (s.completeVerdict_completes b).frame
  | error e => exact (s.raise_completes e).frame
  | request d e rnd _ => exact nomatch hidle

/-- A command's event sets `ERR` only as a completion with error. -/
theorem EngineEvent.completesError {i : Instr} {s t : State} (h : EngineEvent i s t) (hbefore : s.status.err = false)
    (hafter : t.status.err = true) : ∃ e, CompletesError s t e := by
  cases h with
  | error e => exact ⟨e, s.raise_completes e⟩
  | result rd v _ => exact nomatch hbefore.symm.trans hafter
  | verdict b _ => exact nomatch hbefore.symm.trans hafter
  | request d e rnd _ => exact nomatch hbefore.symm.trans hafter

/-- Settles O44: of a command's events only the completion with error sets `ERR`. -/
theorem errorsArePrecise : Obligations.ErrorsArePrecise := by
  intro i s t hbefore hexec hafter
  exact (exec_cases hexec).completesError hbefore hafter

/-- A completion changes what a target other than `STATUS` reads as only where a register changed. -/
theorem CompletionFrame.readTarget_eq {s t : State} (h : CompletionFrame s t) {target : Target} (hst : target ≠ .status)
    (hreg : ∀ r k, target = .limb r k → t.reg r = s.reg r) : t.readTarget target = s.readTarget target := by
  cases target with
  | id => rfl
  | cfg => simp only [State.readTarget, State.cfgWord, h.limbs]
  | ctrl => simp only [State.readTarget, State.ctrlWord, h.ctrl]
  | status => exact absurd rfl hst
  | cmd => rfl
  | limb r k => simp only [State.readTarget, hreg r k rfl]

/-- Settles O48: a completion keeps the map, `CFG` and `CTRL`, and changes a register only as the result of a success. -/
theorem completionChangesOnlyStatusAndDestination : Obligations.CompletionChangesOnlyStatusAndDestination := by
  intro i s t addr hexec hidle hstatus hdest
  have hevent := exec_cases hexec
  have hframe := hevent.completionFrame hidle
  have hread : t.busRead (addr - addr % 4) 4 = s.busRead (addr - addr % 4) 4 := by
    rw [State.busRead, State.busRead, hframe.limbs]
    refine Option.map_congr fun target ht => hframe.readTarget_eq ?_ ?_
    · rintro rfl
      exact hstatus ((busTarget_offset ht).2 _ rfl)
    · rintro r k rfl
      by_contra hr
      obtain ⟨hd, -, -, herr, -⟩ := hevent.reg_changed hr
      exact hdest r k hd herr ht
  rw [State.windowByte, State.windowByte, hread]

/-! ### Illegal words (R247) -/

/-- In `RUN` an engine entry of the inbox completes an illegal word with `IllegalCommand`. -/
theorem step_engine_of_illegal {s : State} {why : DecodeError} {rest : List Input} (hin : s.inbox = .engine :: rest)
    (hrun : s.phase = .run) (hi : decode s.work.ir = .illegal why) :
    step s = .next (State.raise { s with inbox := rest } .illegalCommand) := by
  rw [step_event hin]
  simp only [State.perform, State.engineTurn, State.currentCommand, hrun, hi]

/-- Settles O6: the write is acceptance, and the turn after it the completion of an illegal word. -/
theorem illegalWordCompletesWithIllegalCommand : Obligations.IllegalWordCompletesWithIllegalCommand := by
  intro s c why rest hidle hi hin
  have hturn := step_engine_of_illegal (s := (s.taken (.engine :: rest) .ok).accept c) rfl rfl hi
  exact ⟨_, _, step_commandWrite hidle hin, rfl, rfl, hturn, State.raise_completes _ _, fun _ => rfl, rfl⟩

/-! ### The interrupt output (R250, R251) -/

theorem State.irq_of_flags_clear {s : State} (hdone : s.status.done = false) (herr : s.status.err = false) :
    s.irq = false := by
  simp [State.irq, hdone, herr]

theorem CompletionFrame.irq_eq {s t : State} (h : CompletionFrame s t) :
    t.irq = (s.ctrl.ieDone || (t.status.err && s.ctrl.ieErr)) := by
  rw [State.irq, h.done, h.ctrl, Bool.true_and]

/-- Settles O50: a completion sets `DONE` and keeps the enables; acceptance and the host's clearing leave no flag. -/
theorem interruptFollowsCompletionAndClearing : Obligations.InterruptFollowsCompletionAndClearing := by
  refine ⟨fun i s t hexec hidle => ?_, fun s c => ?_, fun s t v rest hdone herr hin hstep => ?_⟩
  · exact ((exec_cases hexec).completionFrame hidle).irq_eq
  · exact State.irq_of_flags_clear rfl rfl
  · cases (step_statusWrite hin).symm.trans hstep
    exact State.irq_of_flags_clear (by simp [hdone]) (by simp [herr])

/-! ### `CMDERR` (R255) -/

theorem EngineEvent.cmderr_eq {i : Instr} {s t : State} (h : EngineEvent i s t) : t.status.cmderr = s.status.cmderr := by
  cases h <;> rfl

/-- What changes `CMDERR`: a reset and a `STATUS` write with bit 4 set clear it, a write while busy sets it. -/
theorem step_cmderr_changed {s t : State} (hstep : step s = .next t) (hne : t.status.cmderr ≠ s.status.cmderr) :
    (t.status.cmderr = false ∧
      (s.resets ∨ ∃ v rest, v.getLsbD 4 = true ∧ s.inbox = .write 0x00C 4 v :: rest)) ∨
    (t.status.cmderr = true ∧ s.phase ≠ .idle ∧ ∃ addr v rest, s.inbox = .write addr 4 v :: rest) := by
  cases step_cases hstep with
  | command i rest _ _ _ he => exact absurd (exec_cases he).cmderr_eq hne
  | reset rest b hreset => exact .inl ⟨rfl, .inl hreset⟩
  | statusWrite v rest hin =>
    have hcmderr := and_not_eq_ite s.status.cmderr (v.getLsbD 4)
    by_cases hv : v.getLsbD 4 = true
    · exact .inl ⟨hcmderr.trans (if_pos hv), .inr ⟨v, rest, hv, hin⟩⟩
    · exact absurd (hcmderr.trans (if_neg hv)) hne
  | dropped addr v rest hbusy hin => exact .inr ⟨rfl, hbusy, addr, v, rest, hin⟩
  | _ => exact absurd rfl hne

/-- Settles O49: the two ways `CMDERR` can change, told apart by the value it is left with. -/
theorem commandErrorFlagIsSticky : Obligations.CommandErrorFlagIsSticky := by
  intro s t hstep
  refine ⟨fun hbefore hafter => ?_, fun hbefore hafter => ?_⟩
  · rcases step_cmderr_changed hstep (by simp [hbefore, hafter]) with ⟨-, hclears⟩ | ⟨hset, -⟩
    · exact hclears
    · exact nomatch hafter.symm.trans hset
  · rcases step_cmderr_changed hstep (by simp [hbefore, hafter]) with ⟨hclear, -⟩ | ⟨-, hsets⟩
    · exact nomatch hafter.symm.trans hclear
    · exact hsets

/-! ### Every step has a next state, and one phase may wait for ever (R246, R258) -/

theorem State.engineTurn_next (s : State) : ∃ t, s.engineTurn = .next t := by
  rcases s.engineTurn_cases with ⟨-, hturn⟩ | ⟨-, i, -, hturn⟩ | ⟨-, why, -, hturn⟩
  · exact ⟨_, hturn⟩
  · obtain ⟨t, ht, -⟩ := exec_event i s
    exact ⟨t, hturn.trans ht⟩
  · exact ⟨_, hturn⟩

theorem State.perform_next (s : State) (e : Input) : ∃ t, s.perform e = .next t := by
  cases e with
  | engine => exact s.engineTurn_next
  | read addr width => exact ⟨_, rfl⟩
  | write addr width v => exact ⟨_, rfl⟩
  | rngAnswer req ok v => exact ⟨_, rfl⟩
  | hardReset => exact ⟨_, rfl⟩

/-- Settles O24: the engine's turn and every outside event answer a next state. -/
theorem everyStepHasANextState : Obligations.EveryStepHasANextState := by
  intro s
  cases hin : s.inbox with
  | nil => exact step_idle_inbox hin ▸ s.engineTurn_next
  | cons e rest => exact step_event hin ▸ State.perform_next _ e

theorem step_leaves_waitRng {s t : State} (hwaits : s.phase = .waitRng) (hstep : step s = .next t)
    (hleft : t.phase ≠ .waitRng) : s.resets ∨ ∃ ok v rest, s.inbox = .rngAnswer s.rngSeq ok v :: rest := by
  have hne : t.phase ≠ s.phase := hwaits ▸ hleft
  rcases phaseTransitionsAreTheListedOnes s t hstep hne with
    ⟨hidle, -⟩ | ⟨⟨hrun, -⟩, -⟩ | ⟨-, -, hanswer⟩ | ⟨hrun, -⟩ | ⟨hreset, -⟩
  · exact nomatch hwaits.symm.trans hidle
  · exact nomatch hwaits.symm.trans hrun
  · exact .inr hanswer
  · exact nomatch hwaits.symm.trans hrun
  · exact .inl hreset

/-- With no event to come a waiting engine's step changes nothing. -/
theorem step_of_waitRng_of_no_input {s : State} (hwaits : s.phase = .waitRng) (hin : s.inbox = []) :
    step s = .next s := by
  rw [step_idle_inbox hin]
  simp only [State.engineTurn, hwaits]

/-- A state that steps to itself is left by no run. -/
theorem run_of_step_self {s : State} (hself : step s = .next s) (k : Nat) : Sys2Proof.core.run k s = .next s := by
  induction k with
  | zero => rfl
  | succ k ih => exact (run_succ hself k).trans ih

/-- Settles O26: the listed phase transitions end a wait, a waiting step without input is a self-step, and only a command
without a destination can ask for a witness. -/
theorem waitsUntilAnsweredOrReset : Obligations.WaitsUntilAnsweredOrReset := by
  refine ⟨fun _ _ => step_leaves_waitRng,
    fun s k hwaits hin => run_of_step_self (step_of_waitRng_of_no_input hwaits hin) k, fun i s t hnot hexec => ?_⟩
  rcases (exec_cases hexec).completes_or_asks with ⟨hidle, -⟩ | ⟨hd, -⟩
  · exact hidle
  · obtain ⟨rm, rounds, hi⟩ := destination_none hd
    exact absurd hi (hnot rm rounds)

end Sys2Proof.Machine

/-! # Reset at any time, and the requests it withdraws (spec/70_reset_and_hazards.md R270 to R272) -/

namespace Sys2Proof.Machine

/-! ### Both causes of reset (R270, R271) -/

theorem step_hardReset {s : State} {rest : List Input} (hin : s.inbox = .hardReset :: rest) :
    step s = .next (s.taken rest s.busResp).engineReset :=
  step_event hin

theorem step_softReset {s : State} {v : Word} {rest : List Input} (hv : v.getLsbD 31 = true)
    (hin : s.inbox = .write 0x008 4 v :: rest) : step s = .next (s.taken rest .ok).engineReset := by
  rw [step_write_mapped hin (target := .ctrl) rfl, State.writeTarget_ctrl_of_reset _ hv]

/-- The two causes differ in the host's answer alone. -/
theorem step_resets {s : State} (h : s.resets) : ∃ rest b, step s = .next (s.taken rest b).engineReset := by
  obtain ⟨rest, hin | ⟨v, hv, hin⟩⟩ := h
  · exact ⟨rest, _, step_hardReset hin⟩
  · exact ⟨rest, _, step_softReset hv hin⟩

/-- Settles O22: the step of either cause is the reset, whatever the state. -/
theorem resetSetsEveryPieceOfState : Obligations.ResetSetsEveryPieceOfState := by
  intro s rest
  refine ⟨fun hin => ?_, fun v hv hin => ?_⟩
  · exact ⟨_, step_hardReset hin, State.engineReset_atReset _, State.engineReset_limbs _⟩
  · exact ⟨_, step_softReset hv hin, State.engineReset_atReset _, State.engineReset_limbs _, State.engineReset_busResp _⟩

/-! ### Request numbers and late answers (R272; 10_state R52) -/

/-- A command's event either completes it under the number there was, or issues a request under the next number. -/
theorem EngineEvent.rngSeq_cases {i : Instr} {s t : State} (h : EngineEvent i s t) :
    (t.phase = .idle ∧ t.rngSeq = s.rngSeq) ∨ (t.phase = .waitRng ∧ t.rngSeq = s.rngSeq + 1) := by
  cases h with
  | result rd v _ => exact .inl ⟨rfl, rfl⟩
  | verdict b _ => exact .inl ⟨rfl, rfl⟩
  | error e => exact .inl ⟨rfl, rfl⟩
  | request d e rnd _ => exact .inr ⟨rfl, rfl⟩

/-- A step either keeps the request number and does not begin a wait, or takes the next number. -/
theorem step_rngSeq_cases {s t : State} (hstep : step s = .next t) :
    (t.rngSeq = s.rngSeq ∧ (t.phase = .waitRng → s.phase = .waitRng)) ∨ t.rngSeq = s.rngSeq + 1 := by
  cases step_cases hstep with
  | quiet rest b => exact .inl ⟨rfl, id⟩
  | command i rest _ _ _ he =>
    rcases (exec_cases he).rngSeq_cases with ⟨hidle, hkept⟩ | ⟨-, hnext⟩
    · exact .inl ⟨hkept, fun hwaits => nomatch hidle.symm.trans hwaits⟩
    · exact .inr hnext
  | illegal why rest _ _ _ => exact .inl ⟨rfl, nofun⟩
  | reset rest b _ => exact .inl ⟨rfl, nofun⟩
  | enables v rest _ _ => exact .inl ⟨rfl, id⟩
  | statusWrite v rest _ => exact .inl ⟨rfl, id⟩
  | acceptance c rest _ _ => exact .inl ⟨rfl, nofun⟩
  | limbWrite addr v rest r k _ _ _ => exact .inl ⟨rfl, id⟩
  | dropped addr v rest _ _ => exact .inl ⟨rfl, id⟩
  | answer ok v rest _ _ => exact .inl ⟨rfl, nofun⟩

theorem step_rngSeq_le {s t : State} (hstep : step s = .next t) : s.rngSeq ≤ t.rngSeq := by
  rcases step_rngSeq_cases hstep with ⟨hkept, -⟩ | hnext
  · exact hkept.ge
  · omega

theorem step_rngSeq_of_request {s t : State} (hstep : step s = .next t) (hbefore : s.phase ≠ .waitRng)
    (hwaits : t.phase = .waitRng) : t.rngSeq = s.rngSeq + 1 := by
  rcases step_rngSeq_cases hstep with ⟨-, hnone⟩ | hnext
  · exact absurd (hnone hwaits) hbefore
  · exact hnext

/-- An answer when no request is outstanding, or to another request, is only taken off the inbox. -/
theorem step_answer_of_not_outstanding {s : State} {req v : Nat} {ok : Bool} {rest : List Input}
    (hin : s.inbox = .rngAnswer req ok v :: rest) (hlate : s.phase ≠ .waitRng ∨ req ≠ s.rngSeq) :
    step s = .next { s with inbox := rest } := by
  have hnot : ¬ (s.phase = .waitRng ∧ req = s.rngSeq) := not_and_or.2 hlate
  rw [step_event hin]
  exact congrArg Host.Outcome.next (if_neg hnot)

/-- Settles O23: the numbers only grow and a request takes the next one, an answer is heard only under the
outstanding request's number, and the reset state has no request, no `DONE` and no `irq`. -/
theorem lateAnswersAreIgnored : Obligations.LateAnswersAreIgnored := by
  refine ⟨fun _ _ => step_rngSeq_le, fun _ _ => step_rngSeq_of_request,
    fun _ _ _ _ _ => step_answer_of_not_outstanding, fun s t _ hresets hstep => ?_⟩
  obtain ⟨rest, b, hreset⟩ := step_resets hresets
  cases hreset.symm.trans hstep
  have hat := (s.taken rest b).engineReset_atReset
  exact ⟨hat.phase, hat.port, rfl, hat.irq⟩

end Sys2Proof.Machine
